-- ==== Sys2Proof/Word.lean ====
section
/-! DEFINITION. The word types of the core: everything the spec calls bits. All are unsigned
(00_scope.md R7); bit 0 is the least significant bit (R8). -/

namespace Sys2Proof

/-- A memory byte, a general register, a timer (00_scope.md R5, `REG_WIDTH` = 8). -/
abbrev Byte := BitVec 8

/-- An instruction word, the program counter, the index register, a stack entry (16 bits). -/
abbrev Word := BitVec 16

/-- A register index `x` or `y` (30_encoding.md R67): every value names a register (10_state.md R15). -/
abbrev Reg := BitVec 4

/-- A 4-bit key identifier (10_state.md R43, R44). -/
abbrev Key := BitVec 4

/-- A 4-bit immediate `n` (30_encoding.md R67). -/
abbrev Nibble := BitVec 4

/-- A 12-bit address `nnn` (30_encoding.md R67). -/
abbrev Addr := BitVec 12

/-- The index of the flag register `VF` (10_state.md R16). -/
abbrev regF : Reg := 0xF#4

end Sys2Proof
end

