-- ==== Sys2Proof/Syntax.lean ====
section
/-! DEFINITION. The 34 instructions (30_encoding.md R77), one constructor per row of spec/opcode_table.json, in the
table's order. Operands are the fields of R67 at their widths, so every term is an instruction (R69, R73). -/

namespace Sys2Proof

inductive Instr where
  /-- `00E0` CLS -/
  | cls
  /-- `00EE` RET -/
  | ret
  /-- `1nnn` JP addr -/
  | jpAddr (nnn : Addr)
  /-- `2nnn` CALL addr -/
  | callAddr (nnn : Addr)
  /-- `3xkk` SE Vx, kk -/
  | seVxKk (x : Reg) (kk : Byte)
  /-- `4xkk` SNE Vx, kk -/
  | sneVxKk (x : Reg) (kk : Byte)
  /-- `5xy0` SE Vx, Vy -/
  | seVxVy (x y : Reg)
  /-- `6xkk` LD Vx, kk -/
  | ldVxKk (x : Reg) (kk : Byte)
  /-- `7xkk` ADD Vx, kk -/
  | addVxKk (x : Reg) (kk : Byte)
  /-- `8xy0` LD Vx, Vy -/
  | ldVxVy (x y : Reg)
  /-- `8xy1` OR Vx, Vy -/
  | orVxVy (x y : Reg)
  /-- `8xy2` AND Vx, Vy -/
  | andVxVy (x y : Reg)
  /-- `8xy3` XOR Vx, Vy -/
  | xorVxVy (x y : Reg)
  /-- `8xy4` ADD Vx, Vy -/
  | addVxVy (x y : Reg)
  /-- `8xy5` SUB Vx, Vy -/
  | subVxVy (x y : Reg)
  /-- `8xy6` SHR Vx (, Vy): `y` is kept, though `SHIFT_SRC` = `VX` ignores it (R74) -/
  | shrVxVy (x y : Reg)
  /-- `8xy7` SUBN Vx, Vy -/
  | subnVxVy (x y : Reg)
  /-- `8xyE` SHL Vx (, Vy): `y` is kept, as for SHR -/
  | shlVxVy (x y : Reg)
  /-- `9xy0` SNE Vx, Vy -/
  | sneVxVy (x y : Reg)
  /-- `Annn` LD I, addr -/
  | ldIAddr (nnn : Addr)
  /-- `Bnnn` JP V0, addr -/
  | jpV0Addr (nnn : Addr)
  /-- `Cxkk` RND Vx, kk -/
  | rndVxKk (x : Reg) (kk : Byte)
  /-- `Dxyn` DRW Vx, Vy, n -/
  | drwVxVyN (x y : Reg) (n : Nibble)
  /-- `Ex9E` SKP Vx -/
  | skpVx (x : Reg)
  /-- `ExA1` SKNP Vx -/
  | sknpVx (x : Reg)
  /-- `Fx07` LD Vx, DT -/
  | ldVxDt (x : Reg)
  /-- `Fx0A` LD Vx, K -/
  | ldVxK (x : Reg)
  /-- `Fx15` LD DT, Vx -/
  | ldDtVx (x : Reg)
  /-- `Fx18` LD ST, Vx -/
  | ldStVx (x : Reg)
  /-- `Fx1E` ADD I, Vx -/
  | addIVx (x : Reg)
  /-- `Fx29` LD F, Vx -/
  | ldFVx (x : Reg)
  /-- `Fx33` BCD Vx -/
  | bcdVx (x : Reg)
  /-- `Fx55` LD [I], Vx -/
  | ldMemVx (x : Reg)
  /-- `Fx65` LD Vx, [I] -/
  | ldVxMem (x : Reg)
deriving DecidableEq, Repr

end Sys2Proof
end

