-- ==== Sys2Proof/WellFormed.lean ====
section
/-! DEFINITION. Which words are instructions, as the opcode map of 30_encoding.md R77 says it: a word is a row's
instruction when `word & mask = match`. This is written from the map alone; Decode.lean is written from the two-level
tree of R70, and the two are stated to agree. A term of `Instr` needs no check: its fields have exactly the widths
of R67 and every value of a field is legal (R69), so the checks are on words, one per selector of R70. -/

namespace Sys2Proof

/-- A row of the opcode map: `word` is its instruction when `word &&& mask = value` (the map's column `match`). -/
structure Row where
  value : Word
  mask : Word
deriving DecidableEq, Repr

/-- The row of R77 an instruction belongs to. -/
def Instr.row : Instr → Row
  | .cls => ⟨0x00E0, 0xFFFF⟩
  | .ret => ⟨0x00EE, 0xFFFF⟩
  | .jpAddr _ => ⟨0x1000, 0xF000⟩
  | .callAddr _ => ⟨0x2000, 0xF000⟩
  | .seVxKk _ _ => ⟨0x3000, 0xF000⟩
  | .sneVxKk _ _ => ⟨0x4000, 0xF000⟩
  | .seVxVy _ _ => ⟨0x5000, 0xF00F⟩
  | .ldVxKk _ _ => ⟨0x6000, 0xF000⟩
  | .addVxKk _ _ => ⟨0x7000, 0xF000⟩
  | .ldVxVy _ _ => ⟨0x8000, 0xF00F⟩
  | .orVxVy _ _ => ⟨0x8001, 0xF00F⟩
  | .andVxVy _ _ => ⟨0x8002, 0xF00F⟩
  | .xorVxVy _ _ => ⟨0x8003, 0xF00F⟩
  | .addVxVy _ _ => ⟨0x8004, 0xF00F⟩
  | .subVxVy _ _ => ⟨0x8005, 0xF00F⟩
  | .shrVxVy _ _ => ⟨0x8006, 0xF00F⟩
  | .subnVxVy _ _ => ⟨0x8007, 0xF00F⟩
  | .shlVxVy _ _ => ⟨0x800E, 0xF00F⟩
  | .sneVxVy _ _ => ⟨0x9000, 0xF00F⟩
  | .ldIAddr _ => ⟨0xA000, 0xF000⟩
  | .jpV0Addr _ => ⟨0xB000, 0xF000⟩
  | .rndVxKk _ _ => ⟨0xC000, 0xF000⟩
  | .drwVxVyN _ _ _ => ⟨0xD000, 0xF000⟩
  | .skpVx _ => ⟨0xE09E, 0xF0FF⟩
  | .sknpVx _ => ⟨0xE0A1, 0xF0FF⟩
  | .ldVxDt _ => ⟨0xF007, 0xF0FF⟩
  | .ldVxK _ => ⟨0xF00A, 0xF0FF⟩
  | .ldDtVx _ => ⟨0xF015, 0xF0FF⟩
  | .ldStVx _ => ⟨0xF018, 0xF0FF⟩
  | .addIVx _ => ⟨0xF01E, 0xF0FF⟩
  | .ldFVx _ => ⟨0xF029, 0xF0FF⟩
  | .bcdVx _ => ⟨0xF033, 0xF0FF⟩
  | .ldMemVx _ => ⟨0xF055, 0xF0FF⟩
  | .ldVxMem _ => ⟨0xF065, 0xF0FF⟩

/-- The word is the row's instruction. -/
def Row.holds (r : Row) (w : Word) : Bool := w &&& r.mask == r.value

/-- The opcode map: the 34 rows of R77 in its order. -/
def opcodeMap : List Row :=
  [Instr.row .cls, Instr.row .ret, Instr.row (.jpAddr 0), Instr.row (.callAddr 0), Instr.row (.seVxKk 0 0),
   Instr.row (.sneVxKk 0 0), Instr.row (.seVxVy 0 0), Instr.row (.ldVxKk 0 0), Instr.row (.addVxKk 0 0)] ++
  [Instr.row (.ldVxVy 0 0), Instr.row (.orVxVy 0 0), Instr.row (.andVxVy 0 0), Instr.row (.xorVxVy 0 0),
   Instr.row (.addVxVy 0 0), Instr.row (.subVxVy 0 0), Instr.row (.shrVxVy 0 0), Instr.row (.subnVxVy 0 0),
   Instr.row (.shlVxVy 0 0), Instr.row (.sneVxVy 0 0)] ++
  [Instr.row (.ldIAddr 0), Instr.row (.jpV0Addr 0), Instr.row (.rndVxKk 0 0), Instr.row (.drwVxVyN 0 0 0),
   Instr.row (.skpVx 0), Instr.row (.sknpVx 0)] ++
  [Instr.row (.ldVxDt 0), Instr.row (.ldVxK 0), Instr.row (.ldDtVx 0), Instr.row (.ldStVx 0), Instr.row (.addIVx 0),
   Instr.row (.ldFVx 0), Instr.row (.bcdVx 0), Instr.row (.ldMemVx 0), Instr.row (.ldVxMem 0)]

/-- The word is one of the 34 instructions (R71, R73, R77). -/
def legalWord (w : Word) : Bool := opcodeMap.any fun r => r.holds w

end Sys2Proof
end

