-- ==== Sys2Proof/Decode.lean ====
section
/-! DEFINITION. Decoding, as the two-level tree of 30_encoding.md R70, total on any bytes and rejecting by name; and
the encoder, from the formats of R68. -/

namespace Sys2Proof

/-! ## Fields of a word (R67) -/

/-- `op` = `w[15:12]`, the opcode family. -/
def opOf (w : Word) : BitVec 4 := w.extractLsb' 12 4

/-- `x` = `w[11:8]`. -/
def xOf (w : Word) : Reg := w.extractLsb' 8 4

/-- `y` = `w[7:4]`. -/
def yOf (w : Word) : Reg := w.extractLsb' 4 4

/-- `n` = `w[3:0]`. -/
def nOf (w : Word) : Nibble := w.extractLsb' 0 4

/-- `kk` = `w[7:0]`. -/
def kkOf (w : Word) : Byte := w.extractLsb' 0 8

/-- `nnn` = `w[11:0]`. -/
def nnnOf (w : Word) : Addr := w.extractLsb' 0 12

/-! ## Decoding -/

/-- Why bytes are no instruction: R75's two kinds, and fewer than two bytes. -/
inductive DecodeError where
  /-- An opcode family the block lacks: all 16 are recognized, so no word gives it (R75). -/
  | unrecognizedFamily
  /-- A selector the family does not have: the illegal words of R71. -/
  | unrecognizedOperation
  /-- Fewer than the two bytes of an instruction (R66); a fetch always has two. -/
  | truncated
deriving DecidableEq, Repr

/-- Family 0, by the full low 12 bits (R70). -/
def decode0 (w : Word) : Except DecodeError Instr :=
  if nnnOf w = 0x0E0 then .ok .cls
  else if nnnOf w = 0x0EE then .ok .ret
  else .error .unrecognizedOperation

/-- Family 5, by the low 4 bits (R70). -/
def decode5 (w : Word) : Except DecodeError Instr :=
  if nOf w = 0x0 then .ok (.seVxVy (xOf w) (yOf w)) else .error .unrecognizedOperation

/-- Family 8, by the low 4 bits (R70). -/
def decode8 (w : Word) : Except DecodeError Instr :=
  if nOf w = 0x0 then .ok (.ldVxVy (xOf w) (yOf w))
  else if nOf w = 0x1 then .ok (.orVxVy (xOf w) (yOf w))
  else if nOf w = 0x2 then .ok (.andVxVy (xOf w) (yOf w))
  else if nOf w = 0x3 then .ok (.xorVxVy (xOf w) (yOf w))
  else if nOf w = 0x4 then .ok (.addVxVy (xOf w) (yOf w))
  else if nOf w = 0x5 then .ok (.subVxVy (xOf w) (yOf w))
  else if nOf w = 0x6 then .ok (.shrVxVy (xOf w) (yOf w))
  else if nOf w = 0x7 then .ok (.subnVxVy (xOf w) (yOf w))
  else if nOf w = 0xE then .ok (.shlVxVy (xOf w) (yOf w))
  else .error .unrecognizedOperation

/-- Family 9, by the low 4 bits (R70). -/
def decode9 (w : Word) : Except DecodeError Instr :=
  if nOf w = 0x0 then .ok (.sneVxVy (xOf w) (yOf w)) else .error .unrecognizedOperation

/-- Family E, by the low byte (R70). -/
def decodeE (w : Word) : Except DecodeError Instr :=
  if kkOf w = 0x9E then .ok (.skpVx (xOf w))
  else if kkOf w = 0xA1 then .ok (.sknpVx (xOf w))
  else .error .unrecognizedOperation

/-- Family F, by the low byte (R70). -/
def decodeF (w : Word) : Except DecodeError Instr :=
  if kkOf w = 0x07 then .ok (.ldVxDt (xOf w))
  else if kkOf w = 0x0A then .ok (.ldVxK (xOf w))
  else if kkOf w = 0x15 then .ok (.ldDtVx (xOf w))
  else if kkOf w = 0x18 then .ok (.ldStVx (xOf w))
  else if kkOf w = 0x1E then .ok (.addIVx (xOf w))
  else if kkOf w = 0x29 then .ok (.ldFVx (xOf w))
  else if kkOf w = 0x33 then .ok (.bcdVx (xOf w))
  else if kkOf w = 0x55 then .ok (.ldMemVx (xOf w))
  else if kkOf w = 0x65 then .ok (.ldVxMem (xOf w))
  else .error .unrecognizedOperation

/-- The decode phase: the family first, then its selector (R70); it reads only the word (40_sequencer.md R80). -/
def decode (w : Word) : Except DecodeError Instr :=
  if opOf w = 0x0 then decode0 w
  else if opOf w = 0x1 then .ok (.jpAddr (nnnOf w))
  else if opOf w = 0x2 then .ok (.callAddr (nnnOf w))
  else if opOf w = 0x3 then .ok (.seVxKk (xOf w) (kkOf w))
  else if opOf w = 0x4 then .ok (.sneVxKk (xOf w) (kkOf w))
  else if opOf w = 0x5 then decode5 w
  else if opOf w = 0x6 then .ok (.ldVxKk (xOf w) (kkOf w))
  else if opOf w = 0x7 then .ok (.addVxKk (xOf w) (kkOf w))
  else if opOf w = 0x8 then decode8 w
  else if opOf w = 0x9 then decode9 w
  else if opOf w = 0xA then .ok (.ldIAddr (nnnOf w))
  else if opOf w = 0xB then .ok (.jpV0Addr (nnnOf w))
  else if opOf w = 0xC then .ok (.rndVxKk (xOf w) (kkOf w))
  else if opOf w = 0xD then .ok (.drwVxVyN (xOf w) (yOf w) (nOf w))
  else if opOf w = 0xE then decodeE w
  else if opOf w = 0xF then decodeF w
  else .error .unrecognizedFamily

/-- The instruction word of two consecutive bytes: the first is bits 15..8 (20_memory.md R50). -/
def wordOfBytes (first second : Byte) : Word := first ++ second

/-- Decoding any bytes: the first two are the word (30_encoding.md R66). -/
def decodeBytes : List Byte → Except DecodeError Instr
  | first :: second :: _ => decode (wordOfBytes first second)
  | _ => .error .truncated

/-! ## Encoding -/

/-- Format ADDR (R68). -/
def formatAddr (op : BitVec 4) (nnn : Addr) : Word := op ++ nnn

/-- Format RK (R68). -/
def formatRk (op : BitVec 4) (x : Reg) (kk : Byte) : Word := op ++ x ++ kk

/-- Formats RR and RRN (R68). -/
def formatRr (op : BitVec 4) (x y : Reg) (n : Nibble) : Word := op ++ x ++ y ++ n

/-- The word of an instruction (R68, R77). Format RF is RK with the selector in the place of `kk`. -/
def encode : Instr → Word
  | .cls => 0x00E0
  | .ret => 0x00EE
  | .jpAddr nnn => formatAddr 0x1 nnn
  | .callAddr nnn => formatAddr 0x2 nnn
  | .seVxKk x kk => formatRk 0x3 x kk
  | .sneVxKk x kk => formatRk 0x4 x kk
  | .seVxVy x y => formatRr 0x5 x y 0x0
  | .ldVxKk x kk => formatRk 0x6 x kk
  | .addVxKk x kk => formatRk 0x7 x kk
  | .ldVxVy x y => formatRr 0x8 x y 0x0
  | .orVxVy x y => formatRr 0x8 x y 0x1
  | .andVxVy x y => formatRr 0x8 x y 0x2
  | .xorVxVy x y => formatRr 0x8 x y 0x3
  | .addVxVy x y => formatRr 0x8 x y 0x4
  | .subVxVy x y => formatRr 0x8 x y 0x5
  | .shrVxVy x y => formatRr 0x8 x y 0x6
  | .subnVxVy x y => formatRr 0x8 x y 0x7
  | .shlVxVy x y => formatRr 0x8 x y 0xE
  | .sneVxVy x y => formatRr 0x9 x y 0x0
  | .ldIAddr nnn => formatAddr 0xA nnn
  | .jpV0Addr nnn => formatAddr 0xB nnn
  | .rndVxKk x kk => formatRk 0xC x kk
  | .drwVxVyN x y n => formatRr 0xD x y n
  | .skpVx x => formatRk 0xE x 0x9E
  | .sknpVx x => formatRk 0xE x 0xA1
  | .ldVxDt x => formatRk 0xF x 0x07
  | .ldVxK x => formatRk 0xF x 0x0A
  | .ldDtVx x => formatRk 0xF x 0x15
  | .ldStVx x => formatRk 0xF x 0x18
  | .addIVx x => formatRk 0xF x 0x1E
  | .ldFVx x => formatRk 0xF x 0x29
  | .bcdVx x => formatRk 0xF x 0x33
  | .ldMemVx x => formatRk 0xF x 0x55
  | .ldVxMem x => formatRk 0xF x 0x65

/-- The bytes of a word as memory holds them: bits 15..8 at the lower address (20_memory.md R50). -/
def bytesOfWord (w : Word) : List Byte := [w.extractLsb' 8 8, w.extractLsb' 0 8]

/-- The bytes of an instruction, in memory order. -/
def encodeBytes (i : Instr) : List Byte := bytesOfWord (encode i)

/-! ## The opcode table's numbering -/

/-- The one word of an instruction whose bits the opcode table numbers from the least significant bit; bits from
`nbits` up are 0. -/
def tableWord (nbits w : Nat) : Word := BitVec.ofNat 16 (w % 2 ^ nbits)

/-- What the decoder reads from those bits, laid out as memory holds them. -/
def decodeTableWord (nbits w : Nat) : Option Instr :=
  match decodeBytes (bytesOfWord (tableWord nbits w)) with
  | .ok i => some i
  | .error _ => none

end Sys2Proof
end

