-- ==== Sys2Proof/Config.lean ====
section
/-! DEFINITION. What is fixed for a machine: the sizes the source fixes (00_scope.md R5), the parameters the
spec leaves OPEN or gives a default, and the free values, the inputs a step takes from outside. -/

namespace Sys2Proof

/-- `MEM_SIZE`: addresses are `0 .. 4095` (00_scope.md R5, 20_memory.md R48). -/
abbrev memSize : Nat := 4096

/-- `STACK_CAP` (00_scope.md R5, 10_state.md R30). -/
abbrev stackCap : Nat := 16

/-- The font table's length: 16 glyphs of `GLYPH_SIZE` = 5 bytes (00_scope.md R5, 10_state.md R34). -/
abbrev fontSize : Nat := 80

/-- `FB_GEOM`: the two framebuffer sizes (10_state.md R36). -/
inductive Geom where
  /-- 64 x 32 -/
  | standard
  /-- 128 x 64 -/
  | extended
deriving DecidableEq, Repr

/-- `W` in pixels (10_state.md R36). -/
def Geom.width : Geom → Nat
  | .standard => 64
  | .extended => 128

/-- `H` in pixels (10_state.md R36). -/
def Geom.height : Geom → Nat
  | .standard => 32
  | .extended => 64

/-- `SHIFT_SRC`: the source register of `SHR` and `SHL` (00_scope.md R5). -/
inductive ShiftSrc where
  | vx
  | vy
deriving DecidableEq, Repr

/-- `KEY_SRC`: what names the key of `SKP` and `SKNP`, the register `V[x]` or the field `x` (00_scope.md R5,
90_conflicts.md C3). -/
inductive KeySrc where
  | reg
  | field
deriving DecidableEq, Repr

/-- `FONT`: byte `k` goes to `M[k]` (10_state.md R34). -/
abbrev Font := Vector Byte 80

/-- The parameters of a construction, fixed for the whole run (00_scope.md R5, R6; D25). They stand in the
state, where no step writes them, so that a statement over every state holds for every choice
(DESIGN CHOICE, entry 7, safe). -/
structure Params where
  /-- `ENTRY` (10_state.md R25). -/
  entry : Word
  /-- `FONT` (10_state.md R34). -/
  font : Font
  /-- `FB_GEOM` (10_state.md R36). -/
  geom : Geom
  /-- `SHIFT_SRC` (42_alu.md R110, R112). -/
  shiftSrc : ShiftSrc
  /-- `KEY_SRC` (45_timers_keys.md R129, R130). -/
  keySrc : KeySrc
deriving DecidableEq, Repr

/-- The built-in default font (10_state.md R35). The spec marks its bytes general knowledge: PRESUMED, entry 5,
unsafe for a claim that rests on a glyph's bytes. -/
def defaultFont : Font :=
  #v[0xF0, 0x90, 0x90, 0x90, 0xF0,
     0x20, 0x60, 0x20, 0x20, 0x70,
     0xF0, 0x10, 0xF0, 0x80, 0xF0,
     0xF0, 0x10, 0xF0, 0x10, 0xF0,
     0x90, 0x90, 0xF0, 0x10, 0x10,
     0xF0, 0x80, 0xF0, 0x10, 0xF0,
     0xF0, 0x80, 0xF0, 0x90, 0xF0,
     0xF0, 0x10, 0x20, 0x40, 0x40,
     0xF0, 0x90, 0xF0, 0x90, 0xF0,
     0xF0, 0x90, 0xF0, 0x10, 0xF0,
     0xF0, 0x90, 0xF0, 0x90, 0x90,
     0xE0, 0x90, 0xE0, 0x90, 0xE0,
     0xF0, 0x80, 0x80, 0x80, 0xF0,
     0xE0, 0x90, 0x90, 0x90, 0xE0,
     0xF0, 0x80, 0xF0, 0x80, 0xF0,
     0xF0, 0x80, 0xF0, 0x80, 0x80]

/-- The parameters `State.reset` is constructed with: `SHIFT_SRC` and `KEY_SRC` at the spec's defaults
(R5; entry 6), `FONT` the default table (entry 5), `ENTRY` = 0x200 (PRESUMED from the CHIP-8 family, entry 3,
unsafe) and the standard geometry (DESIGN CHOICE, entry 4, unsafe). -/
def Params.initial : Params where
  entry := 0x200
  font := defaultFont
  geom := .standard
  shiftSrc := .vx
  keySrc := .reg

/-- The inputs of one step (40_sequencer.md R89), each free: the random byte of `Cxkk` (42_alu.md R114), the keys
held when `Ex9E`/`ExA1` poll, bit `k` for key `k` (10_state.md R44), and the key-wait provider's answer, `none` while
it has not answered (45_timers_keys.md R132, R137). -/
structure StepInput where
  random : Byte
  keys : BitVec 16
  key : Option Key
deriving DecidableEq, Repr, Inhabited

/-! ## The host's moves -/

/-- What the host may make happen next (10_state.md R41; 40_sequencer.md R88). -/
inductive HostMove where
  /-- The core moves with these inputs: a `STEP` is issued, or the suspended one looks for its key. -/
  | proceed (input : StepInput)
  /-- `TICK` -/
  | tick
  /-- `SNAPSHOT` -/
  | snapshot
  /-- `DIRTY?` -/
  | isDirty
  /-- `DIMENSIONS` -/
  | dimensions
  /-- `LOAD(bytes, at)` -/
  | load (bytes : List Byte) (start : Option Nat)
  /-- The host's key wait returns "no key" (92_eei_decisions.md D31). -/
  | noKey
deriving DecidableEq, Repr, Inhabited

/-! ## Free values -/

/-- The `n`-th random byte drawn: any value, under no law (42_alu.md R114, D17). FREE VALUE, entry 2, safe. -/
opaque Config.randomByte : Nat → Byte

/-- The keys held at the `n`-th step (45_timers_keys.md R137, D30). FREE VALUE, entry 2, safe. -/
opaque Config.keysHeld : Nat → BitVec 16

/-- The key-wait provider's answer at the `n`-th step: any key, or none yet, or never (45_timers_keys.md R137, D26).
FREE VALUE, entry 2, safe. -/
opaque Config.keyAnswer : Nat → Option Key

/-- The inputs of the `n`-th move of the core whose inputs nothing else gives. -/
def Config.input (n : Nat) : StepInput where
  random := Config.randomByte n
  keys := Config.keysHeld n
  key := Config.keyAnswer n

/-- The host's `n`-th move where the agenda does not give it: any transaction, so that a run meets any number of `TICK`,
`SNAPSHOT`, `DIRTY?` and `DIMENSIONS` in any order (40_sequencer.md R88, U12; D13). FREE VALUE, entry 1, safe. -/
opaque Config.hostMove : Nat → HostMove

end Sys2Proof
end

