-- ==== Sys2Proof/Machine/State.lean ====
section
/-! DEFINITION. The state: everything the spec gives the machine (10_state.md), as plain data, with the state after
construction (70_reset_and_hazards.md R154). -/

namespace Sys2Proof.Machine

/-! ## Failures (60_exceptions.md) -/

/-- The kinds of bounds failure (R140). -/
inductive BoundsKind where
  | fetch
  | memRead
  | memWrite
  | stackPush
  | stackPop
  | keyRange
  | indexOverflow
deriving DecidableEq, Repr

/-- The report a failing step returns (R139, R140, R141). -/
inductive Report where
  /-- `DecodeFailure(word, pc)` -/
  | decodeFailure (word pc : Word)
  /-- `BoundsFailure(kind, pc, info)`; `info` may exceed 16 bits (an index sum). -/
  | boundsFailure (kind : BoundsKind) (pc : Word) (info : Nat)
deriving DecidableEq, Repr

/-- `CORE`, the sequencer's state (10_state.md R39). -/
inductive CoreState where
  /-- Between instructions. -/
  | ready
  /-- Suspended inside `Fx0A` with destination register `x`. -/
  | waitKey (x : Reg)
  /-- A failure has been reported; final (40_sequencer.md R87). -/
  | failed (report : Report)
deriving DecidableEq, Repr

/-- The result of `STEP` (40_sequencer.md R85), with `pending` for a `STEP` that has not returned (R86). -/
inductive StepResult where
  | ok
  | pending
  | failure (report : Report)
deriving DecidableEq, Repr

/-! ## Memory and framebuffer -/

/-- Memory: the bytes that differ from the byte at reset, by strictly rising address (entry 27). -/
abbrev Memory := List Host.Cell

/-- A pixel's place: column `px`, row `py` (44_display.md R123). -/
structure Pixel where
  col : Nat
  row : Nat
deriving DecidableEq, Repr

/-- The framebuffer: the lit pixels row by row, each row from the left (a grid of Booleans held as the set of its
true places: DESIGN CHOICE, entry 26, safe), and `DIRTY` (10_state.md R36, R37). -/
structure Framebuffer where
  lit : List Pixel
  dirty : Bool
deriving DecidableEq, Repr

/-! ## Stops -/

/-- A stop with a reason. The failures of `STEP` are no stops: they are next states (entry 8). -/
inductive Fault where
  /-- Raised by `State.load`: the image runs past the end of memory, nothing is written (20_memory.md R60, U16). Safe. -/
  | loadPastEnd (start length : Nat)
deriving DecidableEq, Repr

/-- An operation the spec gives no meaning. -/
inductive Refusal where
  /-- Raised by `exec` for an instruction without a meaning yet. Safe. -/
  | notModelled (mnemonic : String)
  /-- Raised by `State.load` after the first `STEP` (20_memory.md R61, D27). Safe. -/
  | loadAfterStart
  /-- Raised by `construct` for a font that is not 80 bytes (70_reset_and_hazards.md R156, D22). Safe. -/
  | fontLength (length : Nat)
  /-- Raised by `hostMove` for a host timeout of the key wait (40_sequencer.md R86, D31). Safe. -/
  | keyWaitTimeout
deriving DecidableEq, Repr

/-! ## The state -/

structure State where
  /-- `V0`..`VF` (10_state.md R15). -/
  v : Vector Byte 16
  /-- `PC` (R21). -/
  pc : Word
  /-- `I` (R26). -/
  index : Word
  /-- `DT` (R29). -/
  dt : Byte
  /-- `ST` (R29). -/
  st : Byte
  /-- `SD` (R30). -/
  sd : Fin 17
  /-- `STK[0..15]` (R30). -/
  stk : Vector Word 16
  /-- `M` (R33). -/
  mem : Memory
  /-- `FB` and `DIRTY` (R36, R37). -/
  fb : Framebuffer
  /-- `CORE` (R39). -/
  core : CoreState
  /-- The parameters of the construction (00_scope.md R5). -/
  params : Params
  /-- A `STEP` has been issued (20_memory.md R61). -/
  started : Bool
  /-- The model's own: the inputs of the step being run (entry 2). -/
  input : StepInput
  /-- The model's own: how many free values of the host were drawn, `Config.hostMove` and `Config.input` (entries 1, 2). -/
  draws : Nat
  /-- The model's own: the host's next moves, the next one first; where it is empty the host's move is free (entry 1). -/
  agenda : List HostMove
deriving DecidableEq, Repr

/-- The state after `CONSTRUCT` (10_state.md R47, 70_reset_and_hazards.md R154), for any parameters. Memory lists
nothing, since an unlisted byte reads as construction left it (entry 27). -/
def State.construct (p : Params) : State where
  v := Vector.replicate 16 0
  pc := p.entry
  index := 0
  dt := 0
  st := 0
  sd := 0
  stk := Vector.replicate 16 0
  mem := []
  fb := { lit := [], dirty := false }
  core := .ready
  params := p
  started := false
  input := { random := 0, keys := 0, key := none }
  draws := 0
  agenda := []

/-- The machine right after reset, with the parameters of `Params.initial`. -/
def State.reset : State := State.construct Params.initial

end Sys2Proof.Machine
end

