-- ==== Sys2Proof/Machine/Ops.lean ====
section
/-! DEFINITION. The named operations every meaning is built from: registers and the program counter, memory, the
return stack (00_scope.md R10), the framebuffer (44_display.md), reporting a failure, and completing an instruction. -/

namespace Sys2Proof.Machine

/-! ## Registers -/

/-- `V[r]` (10_state.md R15). -/
def State.getV (s : State) (r : Reg) : Byte := s.v[r.toNat]'r.isLt

/-- `V[r] <- b`, the flag register included (10_state.md R15, R16). -/
def State.setV (s : State) (r : Reg) (b : Byte) : State := { s with v := s.v.set r.toNat b r.isLt }

/-- The flag register `VF`, the cell of register 0xF (10_state.md R16). -/
def State.getVF (s : State) : Byte := s.getV regF

/-- Writing `VF` as the flag: 1 or 0 (10_state.md R19). -/
def State.setVF (s : State) (flag : Bool) : State := s.setV regF (if flag then 1 else 0)

/-- `PC <- t` (10_state.md R22). -/
def State.setPc (s : State) (t : Word) : State := { s with pc := t }

/-- The sequential advance `PC <- PC + 2` (40_sequencer.md R82). -/
def State.advance (s : State) : State := s.setPc (s.pc + 2)

/-- The skip's advance: `PC + 4` where the condition holds, else `PC + 2` (40_sequencer.md R82). -/
def State.skipIf (s : State) (condition : Bool) : State := s.setPc (if condition then s.pc + 4 else s.pc + 2)

/-- `I <- t` (10_state.md R26). -/
def State.setIndex (s : State) (t : Word) : State := { s with index := t }

/-- `DT <- b` (10_state.md R29). -/
def State.setDt (s : State) (b : Byte) : State := { s with dt := b }

/-- `ST <- b` (10_state.md R29). -/
def State.setSt (s : State) (b : Byte) : State := { s with st := b }

/-! ## Memory -/

/-- The byte at an address nothing has written: the font table at `0x000`..`0x04F`, 0 elsewhere (10_state.md R33,
R34), the contents construction leaves. -/
def Memory.unlisted (font : Font) (a : Nat) : Byte := if h : a < fontSize then font[a] else 0

/-- The byte at `a`. -/
def Memory.read (font : Font) : Memory → Nat → Byte
  | [], a => Memory.unlisted font a
  | c :: rest, a => if c.1 = a then c.2 else Memory.read font rest a

/-- A new entry at its place. -/
def Memory.insert : Memory → Nat → Byte → Memory
  | [], a, b => [(a, b)]
  | c :: rest, a, b => if a < c.1 then (a, b) :: c :: rest else c :: Memory.insert rest a b

/-- The byte at `a` becomes `b`; what an unlisted address reads as is not listed. -/
def Memory.write (font : Font) (m : Memory) (a : Nat) (b : Byte) : Memory :=
  let others := m.filter fun c => c.1 != a
  if b = Memory.unlisted font a then others else Memory.insert others a b

/-- Every address of the list lies above `a`, and the addresses rise. -/
def Memory.rising : Memory → Bool
  | [] => true
  | [_] => true
  | c :: d :: rest => decide (c.1 < d.1) && Memory.rising (d :: rest)

/-- The canonical form: addresses strictly rising, no entry equal to what its address reads as unlisted. -/
def Memory.wf (font : Font) (m : Memory) : Bool :=
  Memory.rising m && m.all fun c => c.2 != Memory.unlisted font c.1

/-- `M[a]` (20_memory.md R48). -/
def State.readByte (s : State) (a : Nat) : Byte := Memory.read s.params.font s.mem a

/-- `M[a] <- b` (20_memory.md R48): every byte is writable, the font's too (R59). -/
def State.writeByte (s : State) (a : Nat) (b : Byte) : State :=
  { s with mem := Memory.write s.params.font s.mem a b }

/-- Bytes to `M[a]`, `M[a + 1]`, ... in turn (20_memory.md R51). -/
def State.storeBytes (s : State) (a : Nat) : List Byte → State
  | [] => s
  | b :: rest => (s.writeByte a b).storeBytes (a + 1) rest

/-- The bytes `M[a]`..`M[a + length - 1]` (20_memory.md R51). -/
def State.loadBytes (s : State) (a length : Nat) : List Byte :=
  (List.range length).map fun k => s.readByte (a + k)

/-- The check of a transfer of `length` bytes at `I`..`I + length - 1`, made before its first access: the report
carries the lowest address at or past the end of memory (20_memory.md R55, 60_exceptions.md R140). -/
def State.checkSpan (s : State) (kind : BoundsKind) (length : Nat) : Except Report Unit :=
  if length = 0 ∨ s.index.toNat + length ≤ memSize then .ok ()
  else .error (.boundsFailure kind s.pc (max s.index.toNat memSize))

/-- The fetch `MemRead(PC, 2)` (00_scope.md R10, 40_sequencer.md R79): big-endian, no alignment (20_memory.md R50,
R53), failing where `PC + 1` is past the end (R52). -/
def State.fetch (s : State) : Except Report Word :=
  if s.pc.toNat + 1 < memSize then
    .ok (wordOfBytes (s.readByte s.pc.toNat) (s.readByte (s.pc.toNat + 1)))
  else .error (.boundsFailure .fetch s.pc s.pc.toNat)

/-! ## The return stack -/

/-- `Push(r)` (00_scope.md R10, 10_state.md R30, R31). -/
def State.push (s : State) (r : Word) : Except Report State :=
  if h : s.sd.val < stackCap then
    .ok { s with stk := s.stk.set s.sd.val r h, sd := ⟨s.sd.val + 1, Nat.succ_lt_succ h⟩ }
  else .error (.boundsFailure .stackPush s.pc s.sd.val)

/-- `Pop()`: the entry and the state after (00_scope.md R10, 10_state.md R30, R31); the slot keeps its value
(41_control_transfer.md R92). -/
def State.pop (s : State) : Except Report (Word × State) :=
  if h : 0 < s.sd.val then
    .ok (s.stk[s.sd.val - 1], { s with sd := ⟨s.sd.val - 1, by omega⟩ })
  else .error (.boundsFailure .stackPop s.pc s.sd.val)

/-! ## The framebuffer -/

/-- The pixel comes before the other: a higher row, or further left in the same row. -/
def Pixel.before (p q : Pixel) : Bool := p.row < q.row || (p.row == q.row && p.col < q.col)

/-- `FB[px][py]` = 1. -/
def Framebuffer.isLit (fb : Framebuffer) (p : Pixel) : Bool := fb.lit.contains p

/-- A new lit pixel at its place. -/
def Pixel.insert (p : Pixel) : List Pixel → List Pixel
  | [] => [p]
  | q :: rest => if p.before q then p :: q :: rest else q :: p.insert rest

/-- `FB[px][py] <- FB[px][py] ^ bit` (44_display.md R125). -/
def Framebuffer.xorPixel (fb : Framebuffer) (p : Pixel) (bit : Bool) : Framebuffer :=
  if bit then
    { fb with lit := if fb.isLit p then fb.lit.filter (fun q => q != p) else p.insert fb.lit }
  else fb

/-- `clear()` (44_display.md R124). -/
def Framebuffer.clear (_ : Framebuffer) : Framebuffer := { lit := [], dirty := true }

/-- Where bit `i` of a row drawn at `(cx, cy)` falls: both coordinates wrap (44_display.md R123, R125). -/
def Pixel.drawn (g : Geom) (cx cy i : Nat) : Pixel := ⟨(cx + i) % g.width, cy % g.height⟩

/-- Bit `i` of a row byte, from the left: the most significant bit first (44_display.md R125). -/
def rowBit (byte : Byte) (i : Nat) : Bool := byte.getLsbD (7 - i)

/-- One pass of `draw_row`'s loop: the framebuffer and `collided` so far (44_display.md R125). -/
def Framebuffer.drawBit (g : Geom) (byte : Byte) (cx cy : Nat) (acc : Framebuffer × Bool) (i : Nat) :
    Framebuffer × Bool :=
  let p := Pixel.drawn g cx cy i
  let bit := rowBit byte i
  (acc.1.xorPixel p bit, acc.2 || (bit && acc.1.isLit p))

/-- `draw_row(byte, cx, cy)`: the framebuffer after, dirty whatever was drawn, and `collided` (44_display.md R125). -/
def Framebuffer.drawRow (g : Geom) (fb : Framebuffer) (byte : Byte) (cx cy : Nat) : Framebuffer × Bool :=
  let r := (List.range 8).foldl (Framebuffer.drawBit g byte cx cy) (fb, false)
  ({ r.1 with dirty := true }, r.2)

/-- The rows of a sprite from the top, at `(cx, cy)`, `(cx, cy + 1)`, ... (44_display.md R127). -/
def Framebuffer.drawSprite (g : Geom) (fb : Framebuffer) (cx cy : Nat) : List Byte → Framebuffer × Bool
  | [] => (fb, false)
  | byte :: rest =>
    let r := fb.drawRow g byte cx cy
    let below := Framebuffer.drawSprite g r.1 cx (cy + 1) rest
    (below.1, r.2 || below.2)

/-- The `W` x `H` grid, row by row from the top (44_display.md R123, 10_state.md R45). -/
def Framebuffer.grid (g : Geom) (fb : Framebuffer) : List (List Bool) :=
  (List.range g.height).map fun py => (List.range g.width).map fun px => fb.isLit ⟨px, py⟩

/-- The canonical form: lit pixels strictly in order. -/
def Pixel.ordered : List Pixel → Bool
  | [] => true
  | [_] => true
  | p :: q :: rest => p.before q && Pixel.ordered (q :: rest)

/-- The lit pixels are in order and lie in the grid (10_state.md R36). -/
def Framebuffer.wf (g : Geom) (fb : Framebuffer) : Bool :=
  Pixel.ordered fb.lit && fb.lit.all fun p => decide (p.col < g.width) && decide (p.row < g.height)

/-! ## Failures -/

/-- The cause code of a report (60_exceptions.md R140, D24). -/
def Report.code : Report → Byte
  | .decodeFailure _ _ => 0x01
  | .boundsFailure .fetch _ _ => 0x10
  | .boundsFailure .memRead _ _ => 0x11
  | .boundsFailure .memWrite _ _ => 0x12
  | .boundsFailure .stackPush _ _ => 0x13
  | .boundsFailure .stackPop _ _ => 0x14
  | .boundsFailure .keyRange _ _ => 0x15
  | .boundsFailure .indexOverflow _ _ => 0x16

/-- The `pc` a report carries (60_exceptions.md R139, R140). -/
def Report.pc : Report → Word
  | .decodeFailure _ pc => pc
  | .boundsFailure _ pc _ => pc

/-- Taking a failure, the block's only exceptional event (60_exceptions.md R138, R145): no state changes but `CORE`,
which becomes `Failed(report)` (R141); no handler, no saved register, no mode. -/
def State.raise (s : State) (report : Report) : State := { s with core := .failed report }

/-- The end of an instruction: its effects all at once, or, where a check raised, the failure and no other effect
(40_sequencer.md R84). -/
def State.finish (s : State) (done : Except Report State) : Host.Outcome State Fault Refusal :=
  .next (match done with
    | .ok t => t
    | .error report => s.raise report)

/-- The key wait's moment of asking (45_timers_keys.md R132): with the provider's answer at hand the suspended
instruction completes; without it `CORE` is `WaitKey(x)` and nothing else has changed. -/
def State.awaitKey (s : State) (x : Reg) : State :=
  match s.input.key with
  | some k => { (s.setV x (k.zeroExtend 8)).advance with core := .ready }
  | none => { s with core := .waitKey x }

end Sys2Proof.Machine
end

