-- ==== Sys2Proof/Machine/Flags.lean ====
section
/-! DEFINITION. What each flag-writing instruction puts into `VF` (10_state.md R19), on the operands as they were
before the instruction (00_scope.md R11). `Dxyn`'s collision comes from `Framebuffer.drawSprite`. -/

namespace Sys2Proof.Machine

/-- The carry out of an 8-bit addition: the exact sum exceeds 255 (42_alu.md R108). -/
def carryOut (a b : Byte) : Bool := decide (255 < a.toNat + b.toNat)

/-- No borrow in `a - b`: `a >= b` (42_alu.md R109; for `8xy7` with the operands exchanged, R111). -/
def noBorrow (a b : Byte) : Bool := decide (b.toNat ≤ a.toNat)

/-- The bit a right shift by one shifts out: bit 0 (42_alu.md R110). -/
def shiftedOutRight (s : Byte) : Bool := s.getLsbD 0

/-- The bit a left shift by one shifts out: bit 7 (42_alu.md R112). -/
def shiftedOutLeft (s : Byte) : Bool := s.getLsbD 7

end Sys2Proof.Machine
end

