-- ==== Sys2Proof/Machine/Operands.lean ====
section
/-! DEFINITION. The operand forms: how an instruction's fields name what it works on. `V[x]`, `kk` and `nnn` need
nothing but `State.getV` and a zero extension (30_encoding.md R69); the rest stand here. -/

namespace Sys2Proof.Machine

/-- `zext_16(nnn)` (30_encoding.md R69). -/
def addrWord (nnn : Addr) : Word := nnn.zeroExtend 16

/-- A register's byte as a 16-bit value (30_encoding.md R69, 00_scope.md R8). -/
def byteWord (b : Byte) : Word := b.zeroExtend 16

/-- The source of `SHR`/`SHL`: `V[x]` or `V[y]` by `SHIFT_SRC` (42_alu.md R110, R112). -/
def State.shiftOperand (s : State) (x y : Reg) : Byte :=
  match s.params.shiftSrc with
  | .vx => s.getV x
  | .vy => s.getV y

/-- The key number of `SKP`/`SKNP`: `V[x]` or the field `x` by `KEY_SRC` (45_timers_keys.md R129, R130). -/
def State.keyNumber (s : State) (x : Reg) : Byte :=
  match s.params.keySrc with
  | .reg => s.getV x
  | .field => x.zeroExtend 8

/-- The key range check (45_timers_keys.md R129): the poller takes only a 4-bit key. -/
def State.checkKey (s : State) (k : Byte) : Except Report Unit :=
  if k.toNat ≤ 0xF then .ok () else .error (.boundsFailure .keyRange s.pc k.toNat)

/-- `KeyDown(k)`: the poller's answer, an input of the step (10_state.md R44, 45_timers_keys.md R137). -/
def State.keyDown (s : State) (k : Byte) : Bool := s.input.keys.getLsbD k.toNat

/-- The sum of `ADD I, Vx`, with its range check (43_index_memory.md R117). -/
def State.indexSum (s : State) (b : Byte) : Except Report Word :=
  if s.index.toNat + b.toNat ≤ 0xFFFF then .ok (s.index + byteWord b)
  else .error (.boundsFailure .indexOverflow s.pc (s.index.toNat + b.toNat))

/-- The hundreds, tens and units of a byte (43_index_memory.md R119). -/
def decimalDigits (b : Byte) : List Byte := [b / 100, b / 10 % 10, b % 10]

/-- `V[0]`..`V[x]`, the registers `Fx55` stores (43_index_memory.md R120). -/
def State.regsUpTo (s : State) (x : Reg) : List Byte := s.v.toList.take (x.toNat + 1)

/-- `V[k] <- M[a + k]` for `k` from 0 to `x` (43_index_memory.md R121). -/
def State.loadRegs (s : State) (x : Reg) (a : Nat) : State :=
  { s with v := Vector.ofFn fun k : Fin 16 => if k.val ≤ x.toNat then s.readByte (a + k.val) else s.v[k.val] }

end Sys2Proof.Machine
end

