-- ==== Sys2Proof/Machine/Alu.lean ====
section
/-! DEFINITION. The register loads, the 8-bit ALU and the random instruction (42_alu.md). Operands are read from the
state at the start; a flag is written after the result, so it remains where `x` = 0xF (00_scope.md R11). -/

namespace Sys2Proof.Machine

/-- LD Vx, kk (R102). -/
def execLdVxKk (x : Reg) (kk : Byte) (s : State) : Host.Outcome State Fault Refusal :=
  .next (s.setV x kk).advance

/-- ADD Vx, kk (R103): no flag (10_state.md R20). -/
def execAddVxKk (x : Reg) (kk : Byte) (s : State) : Host.Outcome State Fault Refusal :=
  .next (s.setV x (s.getV x + kk)).advance

/-- LD Vx, Vy (R104). -/
def execLdVxVy (x y : Reg) (s : State) : Host.Outcome State Fault Refusal :=
  .next (s.setV x (s.getV y)).advance

/-- OR Vx, Vy (R105). -/
def execOrVxVy (x y : Reg) (s : State) : Host.Outcome State Fault Refusal :=
  .next (s.setV x (s.getV x ||| s.getV y)).advance

/-- AND Vx, Vy (R106). -/
def execAndVxVy (x y : Reg) (s : State) : Host.Outcome State Fault Refusal :=
  .next (s.setV x (s.getV x &&& s.getV y)).advance

/-- XOR Vx, Vy (R107). -/
def execXorVxVy (x y : Reg) (s : State) : Host.Outcome State Fault Refusal :=
  .next (s.setV x (s.getV x ^^^ s.getV y)).advance

/-- ADD Vx, Vy (R108). -/
def execAddVxVy (x y : Reg) (s : State) : Host.Outcome State Fault Refusal :=
  .next ((s.setV x (s.getV x + s.getV y)).setVF (carryOut (s.getV x) (s.getV y))).advance

/-- SUB Vx, Vy (R109). -/
def execSubVxVy (x y : Reg) (s : State) : Host.Outcome State Fault Refusal :=
  .next ((s.setV x (s.getV x - s.getV y)).setVF (noBorrow (s.getV x) (s.getV y))).advance

/-- SHR Vx (, Vy) (R110). -/
def execShrVxVy (x y : Reg) (s : State) : Host.Outcome State Fault Refusal :=
  .next ((s.setV x (s.shiftOperand x y >>> 1)).setVF (shiftedOutRight (s.shiftOperand x y))).advance

/-- SUBN Vx, Vy (R111). -/
def execSubnVxVy (x y : Reg) (s : State) : Host.Outcome State Fault Refusal :=
  .next ((s.setV x (s.getV y - s.getV x)).setVF (noBorrow (s.getV y) (s.getV x))).advance

/-- SHL Vx (, Vy) (R112). -/
def execShlVxVy (x y : Reg) (s : State) : Host.Outcome State Fault Refusal :=
  .next ((s.setV x (s.shiftOperand x y <<< 1)).setVF (shiftedOutLeft (s.shiftOperand x y))).advance

/-- RND Vx, kk (R113): the random byte is an input of the step (R114). -/
def execRndVxKk (x : Reg) (kk : Byte) (s : State) : Host.Outcome State Fault Refusal :=
  .next (s.setV x (s.input.random &&& kk)).advance

end Sys2Proof.Machine
end

