-- ==== Sys2Proof/Machine/Control.lean ====
section
/-! DEFINITION. Control transfer (41_control_transfer.md): return, jumps, call, and the four register skips. -/

namespace Sys2Proof.Machine

/-- RET (R92): the popped address is the next `PC`, with no further advance. -/
def execRet (s : State) : Host.Outcome State Fault Refusal :=
  s.finish (s.pop.map fun popped => popped.2.setPc popped.1)

/-- JP addr (R93). -/
def execJpAddr (nnn : Addr) (s : State) : Host.Outcome State Fault Refusal :=
  .next (s.setPc (addrWord nnn))

/-- CALL addr (R94): pushes the address of the instruction after it. -/
def execCallAddr (nnn : Addr) (s : State) : Host.Outcome State Fault Refusal :=
  s.finish ((s.push (s.pc + 2)).map fun t => t.setPc (addrWord nnn))

/-- SE Vx, kk (R95). -/
def execSeVxKk (x : Reg) (kk : Byte) (s : State) : Host.Outcome State Fault Refusal :=
  .next (s.skipIf (s.getV x == kk))

/-- SNE Vx, kk (R96). -/
def execSneVxKk (x : Reg) (kk : Byte) (s : State) : Host.Outcome State Fault Refusal :=
  .next (s.skipIf (s.getV x != kk))

/-- SE Vx, Vy (R97). -/
def execSeVxVy (x y : Reg) (s : State) : Host.Outcome State Fault Refusal :=
  .next (s.skipIf (s.getV x == s.getV y))

/-- SNE Vx, Vy (R98). -/
def execSneVxVy (x y : Reg) (s : State) : Host.Outcome State Fault Refusal :=
  .next (s.skipIf (s.getV x != s.getV y))

/-- JP V0, addr (R99): the register is always `V0`; the 16-bit sum never wraps. -/
def execJpV0Addr (nnn : Addr) (s : State) : Host.Outcome State Fault Refusal :=
  .next (s.setPc (byteWord (s.getV 0) + addrWord nnn))

end Sys2Proof.Machine
end

