-- ==== Sys2Proof/Machine/Display.lean ====
section
/-! DEFINITION. The two framebuffer instructions (44_display.md). -/

namespace Sys2Proof.Machine

/-- CLS (R126). -/
def execCls (s : State) : Host.Outcome State Fault Refusal :=
  .next { s with fb := s.fb.clear }.advance

/-- The sprite of `n` rows at `I`, drawn at `(V[x], V[y])`, and whether a pixel was erased (R127). -/
def State.drawn (s : State) (x y : Reg) (n : Nibble) : Framebuffer × Bool :=
  s.fb.drawSprite s.params.geom (s.getV x).toNat (s.getV y).toNat (s.loadBytes s.index.toNat n.toNat)

/-- DRW Vx, Vy, n (R127): `VF` is written last; with `n` = 0 no row is drawn and `DIRTY` keeps its value. -/
def execDrwVxVyN (x y : Reg) (n : Nibble) (s : State) : Host.Outcome State Fault Refusal :=
  s.finish ((s.checkSpan .memRead n.toNat).map fun _ =>
    ({ s with fb := (s.drawn x y n).1 }.setVF (s.drawn x y n).2).advance)

end Sys2Proof.Machine
end

