-- ==== Sys2Proof/Machine/IndexMemory.lean ====
section
/-! DEFINITION. The index register and the memory transfers through it (43_index_memory.md). Every address is checked
before the first write, and `I` is unchanged by a transfer (R122). -/

namespace Sys2Proof.Machine

/-- LD I, addr (R116). -/
def execLdIAddr (nnn : Addr) (s : State) : Host.Outcome State Fault Refusal :=
  .next (s.setIndex (addrWord nnn)).advance

/-- ADD I, Vx (R117): a sum past 16 bits fails; no flag. -/
def execAddIVx (x : Reg) (s : State) : Host.Outcome State Fault Refusal :=
  s.finish ((s.indexSum (s.getV x)).map fun t => (s.setIndex t).advance)

/-- LD F, Vx (R118): the whole register, unmasked. -/
def execLdFVx (x : Reg) (s : State) : Host.Outcome State Fault Refusal :=
  .next (s.setIndex (byteWord (s.getV x) * 5)).advance

/-- BCD Vx (R119). -/
def execBcdVx (x : Reg) (s : State) : Host.Outcome State Fault Refusal :=
  s.finish ((s.checkSpan .memWrite 3).map fun _ =>
    (s.storeBytes s.index.toNat (decimalDigits (s.getV x))).advance)

/-- LD [I], Vx (R120). -/
def execLdMemVx (x : Reg) (s : State) : Host.Outcome State Fault Refusal :=
  s.finish ((s.checkSpan .memWrite (x.toNat + 1)).map fun _ =>
    (s.storeBytes s.index.toNat (s.regsUpTo x)).advance)

/-- LD Vx, [I] (R121). -/
def execLdVxMem (x : Reg) (s : State) : Host.Outcome State Fault Refusal :=
  s.finish ((s.checkSpan .memRead (x.toNat + 1)).map fun _ =>
    (s.loadRegs x s.index.toNat).advance)

end Sys2Proof.Machine
end

