-- ==== Sys2Proof/Machine/KeysTimers.lean ====
section
/-! DEFINITION. The key skips, the key wait and the timer moves (45_timers_keys.md). -/

namespace Sys2Proof.Machine

/-- SKP Vx (R129). -/
def execSkpVx (x : Reg) (s : State) : Host.Outcome State Fault Refusal :=
  s.finish ((s.checkKey (s.keyNumber x)).map fun _ => s.skipIf (s.keyDown (s.keyNumber x)))

/-- SKNP Vx (R130). -/
def execSknpVx (x : Reg) (s : State) : Host.Outcome State Fault Refusal :=
  s.finish ((s.checkKey (s.keyNumber x)).map fun _ => s.skipIf (!s.keyDown (s.keyNumber x)))

/-- LD Vx, DT (R131). -/
def execLdVxDt (x : Reg) (s : State) : Host.Outcome State Fault Refusal :=
  .next (s.setV x s.dt).advance

/-- LD Vx, K (R132): completes at once where the provider's answer is at hand, else suspends. -/
def execLdVxK (x : Reg) (s : State) : Host.Outcome State Fault Refusal :=
  .next (s.awaitKey x)

/-- LD DT, Vx (R133). -/
def execLdDtVx (x : Reg) (s : State) : Host.Outcome State Fault Refusal :=
  .next (s.setDt (s.getV x)).advance

/-- LD ST, Vx (R134). -/
def execLdStVx (x : Reg) (s : State) : Host.Outcome State Fault Refusal :=
  .next (s.setSt (s.getV x)).advance

end Sys2Proof.Machine
end

