-- ==== Sys2Proof/Machine/Dispatch.lean ====
section
/-! DEFINITION. The execute phase (40_sequencer.md R81): one meaning per instruction. -/

namespace Sys2Proof.Machine

def exec (i : Instr) (s : State) : Host.Outcome State Fault Refusal :=
  match i with
  | .cls => Sys2Proof.Machine.execCls s
  | .ret => Sys2Proof.Machine.execRet s
  | .jpAddr nnn => Sys2Proof.Machine.execJpAddr nnn s
  | .callAddr nnn => Sys2Proof.Machine.execCallAddr nnn s
  | .seVxKk x kk => Sys2Proof.Machine.execSeVxKk x kk s
  | .sneVxKk x kk => Sys2Proof.Machine.execSneVxKk x kk s
  | .seVxVy x y => Sys2Proof.Machine.execSeVxVy x y s
  | .ldVxKk x kk => Sys2Proof.Machine.execLdVxKk x kk s
  | .addVxKk x kk => Sys2Proof.Machine.execAddVxKk x kk s
  | .ldVxVy x y => Sys2Proof.Machine.execLdVxVy x y s
  | .orVxVy x y => Sys2Proof.Machine.execOrVxVy x y s
  | .andVxVy x y => Sys2Proof.Machine.execAndVxVy x y s
  | .xorVxVy x y => Sys2Proof.Machine.execXorVxVy x y s
  | .addVxVy x y => Sys2Proof.Machine.execAddVxVy x y s
  | .subVxVy x y => Sys2Proof.Machine.execSubVxVy x y s
  | .shrVxVy x y => Sys2Proof.Machine.execShrVxVy x y s
  | .subnVxVy x y => Sys2Proof.Machine.execSubnVxVy x y s
  | .shlVxVy x y => Sys2Proof.Machine.execShlVxVy x y s
  | .sneVxVy x y => Sys2Proof.Machine.execSneVxVy x y s
  | .ldIAddr nnn => Sys2Proof.Machine.execLdIAddr nnn s
  | .jpV0Addr nnn => Sys2Proof.Machine.execJpV0Addr nnn s
  | .rndVxKk x kk => Sys2Proof.Machine.execRndVxKk x kk s
  | .drwVxVyN x y n => Sys2Proof.Machine.execDrwVxVyN x y n s
  | .skpVx x => Sys2Proof.Machine.execSkpVx x s
  | .sknpVx x => Sys2Proof.Machine.execSknpVx x s
  | .ldVxDt x => Sys2Proof.Machine.execLdVxDt x s
  | .ldVxK x => Sys2Proof.Machine.execLdVxK x s
  | .ldDtVx x => Sys2Proof.Machine.execLdDtVx x s
  | .ldStVx x => Sys2Proof.Machine.execLdStVx x s
  | .addIVx x => Sys2Proof.Machine.execAddIVx x s
  | .ldFVx x => Sys2Proof.Machine.execLdFVx x s
  | .bcdVx x => Sys2Proof.Machine.execBcdVx x s
  | .ldMemVx x => Sys2Proof.Machine.execLdMemVx x s
  | .ldVxMem x => Sys2Proof.Machine.execLdVxMem x s

end Sys2Proof.Machine
end

