-- ==== Sys2Proof/Machine/HostPort.lean ====
section
/-! DEFINITION. The host's transactions other than `STEP` (10_state.md R41): construction, load, tick, and the reads of
the framebuffer. -/

namespace Sys2Proof.Machine

/-- `CONSTRUCT(entry, font?, geom)` with the two parameters of 00_scope.md R5 (70_reset_and_hazards.md R154): the default
font where none is supplied, refused where the supplied one is not 80 bytes (R156). -/
def construct (entry : Word) (font : Option (List Byte)) (geom : Geom) (shiftSrc : ShiftSrc) (keySrc : KeySrc) :
    Host.Outcome State Fault Refusal :=
  match font with
  | none => .next (State.construct ⟨entry, defaultFont, geom, shiftSrc, keySrc⟩)
  | some bytes =>
    if h : bytes.length = fontSize then
      .next (State.construct ⟨entry, ⟨bytes.toArray, h⟩, geom, shiftSrc, keySrc⟩)
    else .refused (.fontLength bytes.length)

/-- `LOAD(bytes, at)` (20_memory.md R60): verbatim, at `PC` where no address is given; past the end a fatal load error
with nothing written; after the first `STEP` refused (R61). -/
def State.load (s : State) (bytes : List Byte) (start : Option Nat) : Host.Outcome State Fault Refusal :=
  if s.started then .refused .loadAfterStart
  else if start.getD s.pc.toNat + bytes.length ≤ memSize then
    .next (s.storeBytes (start.getD s.pc.toNat) bytes)
  else .fault (.loadPastEnd (start.getD s.pc.toNat) bytes.length)

/-- One less, floored at 0 (45_timers_keys.md R135). -/
def countDown (b : Byte) : Byte := if 0 < b.toNat then b - 1 else b

/-- `TICK` (45_timers_keys.md R135). -/
def State.tick (s : State) : State := { s with dt := countDown s.dt, st := countDown s.st }

/-- `SNAPSHOT`: the grid, and the state after, whose `DIRTY` is 0 (10_state.md R45). -/
def State.snapshot (s : State) : List (List Bool) × State :=
  (s.fb.grid s.params.geom, { s with fb := { s.fb with dirty := false } })

/-- `DIRTY?` (10_state.md R45). -/
def State.isDirty (s : State) : Bool := s.fb.dirty

/-- `DIMENSIONS` (10_state.md R45). -/
def State.dimensions (s : State) : Nat × Nat := (s.params.geom.width, s.params.geom.height)

/-- The sound output: the value of `ST` (10_state.md R46). -/
def State.soundOutput (s : State) : Byte := s.st

/-- What the last `STEP` has returned, or that it has not (40_sequencer.md R85, R86). -/
def State.stepResult (s : State) : StepResult :=
  match s.core with
  | .ready => .ok
  | .waitKey _ => .pending
  | .failed report => .failure report

end Sys2Proof.Machine
end

