-- ==== Sys2Proof/Machine/Sequencer.lean ====
section
/-! DEFINITION. The sequencer (40_sequencer.md): fetch, decode, execute; the suspension in `Fx0A`; what follows a
failure; and which transaction comes next. -/

namespace Sys2Proof.Machine

/-- One `STEP` with `CORE = Ready` (R78): fetch (R79), decode (R80), execute (R81); the first that fails is reported
(60_exceptions.md R143). -/
def runInstruction (s : State) : Host.Outcome State Fault Refusal :=
  match s.fetch with
  | .error report => .next (s.raise report)
  | .ok w =>
    match decode w with
    | .error _ => .next (s.raise (.decodeFailure w s.pc))
    | .ok i => exec i s

/-- A step's inputs are at hand (R89), and the run has begun (20_memory.md R61). -/
def State.latch (s : State) (input : StepInput) : State := { s with input := input, started := true }

/-- The core's move: a `STEP`; the suspended `STEP` of `Fx0A` asking again (R86, 45_timers_keys.md R132); after a failure
the same report again and no change (R87). -/
def coreMove (s : State) (input : StepInput) : Host.Outcome State Fault Refusal :=
  match s.core with
  | .failed _ => .next s
  | .waitKey x => .next ((s.latch input).awaitKey x)
  | .ready => runInstruction (s.latch input)

/-- A move of the host (10_state.md R41, R45; 40_sequencer.md R88). `DIRTY?` and `DIMENSIONS` change nothing. -/
def hostMove (m : HostMove) (s : State) : Host.Outcome State Fault Refusal :=
  match m with
  | .proceed input => coreMove s input
  | .tick => .next s.tick
  | .snapshot => .next s.snapshot.2
  | .isDirty => .next s
  | .dimensions => .next s
  | .load bytes start => s.load bytes start
  | .noKey => .refused .keyWaitTimeout

/-- The rules let the host make this move here: a `LOAD` before the first `STEP` and inside memory (20_memory.md R60, R61),
no timeout of the key wait (D31), every other transaction always (40_sequencer.md R88). -/
def State.admits (s : State) (m : HostMove) : Bool :=
  match m with
  | .proceed _ => true
  | .tick => true
  | .snapshot => true
  | .isDirty => true
  | .dimensions => true
  | .load bytes start => !s.started && decide (start.getD s.pc.toNat + bytes.length ≤ memSize)
  | .noKey => false

/-- The host's choice where the rules admit it; in place of any other, the core's move (entry 1). -/
def State.settle (s : State) (choice : HostMove) (input : StepInput) : HostMove :=
  if s.admits choice then choice else .proceed input

/-- The next move and the state it is made in: the agenda's first, or, where the agenda is empty, the host's free choice
(40_sequencer.md R88, entry 1). -/
def State.nextMove (s : State) : HostMove × State :=
  match s.agenda with
  | [] => (s.settle (Config.hostMove s.draws) (Config.input s.draws), { s with draws := s.draws + 1 })
  | m :: rest => (m, { s with agenda := rest })

/-- The next transaction. -/
def transaction (s : State) : Host.Outcome State Fault Refusal := hostMove s.nextMove.1 s.nextMove.2

/-- The word's bytes at `PC` and `PC + 1` (a `LOAD` of two bytes, 20_memory.md R60), and the core's move, with free inputs,
coming next, so that it fetches them. -/
def State.placeWord (s : State) (w : Word) : State :=
  { s.storeBytes s.pc.toNat (bytesOfWord w) with
    core := .ready, agenda := [.proceed (Config.input s.draws)], draws := s.draws + 1 }

end Sys2Proof.Machine
end

