-- ==== Sys2Proof/Machine/Assembly.lean ====
section
/-! DEFINITION. The assembler spelling of an instruction (30_encoding.md R76, R77). Notation only: nothing reads it.
How many digits a number takes is the model's choice, as 95_test_vectors.md writes them (entry 33, safe). -/

namespace Sys2Proof

/-- One hexadecimal digit. -/
def hexDigit (d : BitVec 4) : String :=
  (["0", "1", "2", "3", "4", "5", "6", "7", "8", "9", "A", "B", "C", "D", "E", "F"])[d.toNat]'d.isLt

/-- `V` and a hexadecimal digit (R76). -/
def regText (r : Reg) : String := "V" ++ hexDigit r

/-- A byte in two hexadecimal digits. -/
def byteText (b : Byte) : String := hexDigit (b.extractLsb' 4 4) ++ hexDigit (b.extractLsb' 0 4)

/-- An address in three hexadecimal digits. -/
def addrText (a : Addr) : String := hexDigit (a.extractLsb' 8 4) ++ byteText (a.extractLsb' 0 8)

/-- Mnemonic and two operands, the destination first, separated by commas (R76). -/
def twoOperands (mnemonic first second : String) : String := mnemonic ++ " " ++ first ++ ", " ++ second

/-- `SHR` and `SHL` name `Vy` when `SHIFT_SRC` = `VY` makes it meaningful (R77). -/
def shiftText (src : ShiftSrc) (mnemonic : String) (x y : Reg) : String :=
  match src with
  | .vx => mnemonic ++ " " ++ regText x
  | .vy => twoOperands mnemonic (regText x) (regText y)

/-- The spelling of an instruction (R77's column). -/
def Instr.text (src : ShiftSrc) : Instr → String
  | .cls => "CLS"
  | .ret => "RET"
  | .jpAddr nnn => "JP " ++ addrText nnn
  | .callAddr nnn => "CALL " ++ addrText nnn
  | .seVxKk x kk => twoOperands "SE" (regText x) (byteText kk)
  | .sneVxKk x kk => twoOperands "SNE" (regText x) (byteText kk)
  | .seVxVy x y => twoOperands "SE" (regText x) (regText y)
  | .ldVxKk x kk => twoOperands "LD" (regText x) (byteText kk)
  | .addVxKk x kk => twoOperands "ADD" (regText x) (byteText kk)
  | .ldVxVy x y => twoOperands "LD" (regText x) (regText y)
  | .orVxVy x y => twoOperands "OR" (regText x) (regText y)
  | .andVxVy x y => twoOperands "AND" (regText x) (regText y)
  | .xorVxVy x y => twoOperands "XOR" (regText x) (regText y)
  | .addVxVy x y => twoOperands "ADD" (regText x) (regText y)
  | .subVxVy x y => twoOperands "SUB" (regText x) (regText y)
  | .shrVxVy x y => shiftText src "SHR" x y
  | .subnVxVy x y => twoOperands "SUBN" (regText x) (regText y)
  | .shlVxVy x y => shiftText src "SHL" x y
  | .sneVxVy x y => twoOperands "SNE" (regText x) (regText y)
  | .ldIAddr nnn => twoOperands "LD" "I" (addrText nnn)
  | .jpV0Addr nnn => twoOperands "JP" "V0" (addrText nnn)
  | .rndVxKk x kk => twoOperands "RND" (regText x) (byteText kk)
  | .drwVxVyN x y n => twoOperands "DRW" (regText x) (regText y) ++ ", " ++ hexDigit n
  | .skpVx x => "SKP " ++ regText x
  | .sknpVx x => "SKNP " ++ regText x
  | .ldVxDt x => twoOperands "LD" (regText x) "DT"
  | .ldVxK x => twoOperands "LD" (regText x) "K"
  | .ldDtVx x => twoOperands "LD" "DT" (regText x)
  | .ldStVx x => twoOperands "LD" "ST" (regText x)
  | .addIVx x => twoOperands "ADD" "I" (regText x)
  | .ldFVx x => twoOperands "LD" "F" (regText x)
  | .bcdVx x => "BCD " ++ regText x
  | .ldMemVx x => twoOperands "LD" "[I]" (regText x)
  | .ldVxMem x => twoOperands "LD" (regText x) "[I]"

end Sys2Proof
end

