-- ==== Sys2Proof/Safety.lean ====
section
/-! DEFINITION. The terms claims are stated in: the invariants of the state, the end of a run, and what an instruction
leaves unchanged. -/

namespace Sys2Proof

/-! ## Which registers an instruction reads and writes (10_state.md R17) -/

/-- The instruction may write register `r`: as `V[x]`, among `V[0]`..`V[x]`, or as the flag. -/
def Instr.writesReg (i : Instr) (r : Reg) : Bool :=
  match i with
  | .ldVxKk x _ => r == x
  | .addVxKk x _ => r == x
  | .ldVxVy x _ => r == x
  | .orVxVy x _ => r == x
  | .andVxVy x _ => r == x
  | .xorVxVy x _ => r == x
  | .addVxVy x _ => r == x || r == regF
  | .subVxVy x _ => r == x || r == regF
  | .shrVxVy x _ => r == x || r == regF
  | .subnVxVy x _ => r == x || r == regF
  | .shlVxVy x _ => r == x || r == regF
  | .rndVxKk x _ => r == x
  | .drwVxVyN _ _ _ => r == regF
  | .ldVxDt x => r == x
  | .ldVxK x => r == x
  | .ldVxMem x => decide (r.toNat ≤ x.toNat)
  | .cls => false
  | .ret => false
  | .jpAddr _ => false
  | .callAddr _ => false
  | .seVxKk _ _ => false
  | .sneVxKk _ _ => false
  | .seVxVy _ _ => false
  | .sneVxVy _ _ => false
  | .ldIAddr _ => false
  | .jpV0Addr _ => false
  | .skpVx _ => false
  | .sknpVx _ => false
  | .ldDtVx _ => false
  | .ldStVx _ => false
  | .addIVx _ => false
  | .ldFVx _ => false
  | .bcdVx _ => false
  | .ldMemVx _ => false

/-- The instruction reads register `r`, under the parameters `SHIFT_SRC` and `KEY_SRC`. -/
def Instr.readsReg (p : Params) (i : Instr) (r : Reg) : Bool :=
  match i with
  | .seVxKk x _ => r == x
  | .sneVxKk x _ => r == x
  | .seVxVy x y => r == x || r == y
  | .addVxKk x _ => r == x
  | .ldVxVy _ y => r == y
  | .orVxVy x y => r == x || r == y
  | .andVxVy x y => r == x || r == y
  | .xorVxVy x y => r == x || r == y
  | .addVxVy x y => r == x || r == y
  | .subVxVy x y => r == x || r == y
  | .shrVxVy x y => match p.shiftSrc with
    | .vx => r == x
    | .vy => r == y
  | .subnVxVy x y => r == x || r == y
  | .shlVxVy x y => match p.shiftSrc with
    | .vx => r == x
    | .vy => r == y
  | .sneVxVy x y => r == x || r == y
  | .jpV0Addr _ => r == 0
  | .drwVxVyN x y _ => r == x || r == y
  | .skpVx x => match p.keySrc with
    | .reg => r == x
    | .field => false
  | .sknpVx x => match p.keySrc with
    | .reg => r == x
    | .field => false
  | .ldDtVx x => r == x
  | .ldStVx x => r == x
  | .addIVx x => r == x
  | .ldFVx x => r == x
  | .bcdVx x => r == x
  | .ldMemVx x => decide (r.toNat ≤ x.toNat)
  | .cls => false
  | .ret => false
  | .jpAddr _ => false
  | .callAddr _ => false
  | .ldVxKk _ _ => false
  | .ldIAddr _ => false
  | .rndVxKk _ _ => false
  | .ldVxDt _ => false
  | .ldVxK _ => false
  | .ldVxMem _ => false

/-- The instructions that write `VF` as a flag (10_state.md R19). -/
def Instr.writesFlag (i : Instr) : Bool :=
  match i with
  | .addVxVy _ _ => true
  | .subVxVy _ _ => true
  | .shrVxVy _ _ => true
  | .subnVxVy _ _ => true
  | .shlVxVy _ _ => true
  | .drwVxVyN _ _ _ => true
  | .cls => false
  | .ret => false
  | .jpAddr _ => false
  | .callAddr _ => false
  | .seVxKk _ _ => false
  | .sneVxKk _ _ => false
  | .seVxVy _ _ => false
  | .ldVxKk _ _ => false
  | .addVxKk _ _ => false
  | .ldVxVy _ _ => false
  | .orVxVy _ _ => false
  | .andVxVy _ _ => false
  | .xorVxVy _ _ => false
  | .sneVxVy _ _ => false
  | .ldIAddr _ => false
  | .jpV0Addr _ => false
  | .rndVxKk _ _ => false
  | .skpVx _ => false
  | .sknpVx _ => false
  | .ldVxDt _ => false
  | .ldVxK _ => false
  | .ldDtVx _ => false
  | .ldStVx _ => false
  | .addIVx _ => false
  | .ldFVx _ => false
  | .bcdVx _ => false
  | .ldMemVx _ => false
  | .ldVxMem _ => false

end Sys2Proof

namespace Sys2Proof.Machine

/-! ## Invariants -/

/-- Memory is in canonical form and lists addresses of the address space only (20_memory.md R48). -/
def State.memOk (s : State) : Bool := s.mem.wf s.params.font && s.mem.all fun c => decide (c.1 < memSize)

/-- The lit pixels are in order and in the grid (10_state.md R36). -/
def State.fbOk (s : State) : Bool := s.fb.wf s.params.geom

/-- `PC` is at most 0x10FE (10_state.md R21), every live stack entry at most 0x1000 (41_control_transfer.md R92), and a
suspended `Fx0A` stands where it could be fetched. -/
def State.pcOk (s : State) : Prop :=
  s.pc.toNat ≤ 0x10FE ∧ (∀ k : Fin 16, k.val < s.sd.val → s.stk[k.val].toNat ≤ 0x1000) ∧
    ∀ x, s.core = .waitKey x → s.pc.toNat + 1 < memSize

/-! ## The end of a run (40_sequencer.md R90, D29) -/

/-- A failure has been reported, or the word at `PC` is the jump to itself. -/
def State.ended (s : State) : Prop :=
  (∃ report, s.core = .failed report) ∨ (s.core = .ready ∧ s.fetch = .ok (0x1000 ||| s.pc) ∧ s.pc.toNat ≤ 0xFFF)

/-! ## Frames -/

/-- The parts of the block's state other than the general registers, `PC` and memory. -/
inductive Part where
  | index
  | delayTimer
  | soundTimer
  | stack
  | display
  | core
deriving DecidableEq, Repr

/-- The part is the same in both states. -/
def Part.same (p : Part) (s t : State) : Prop :=
  match p with
  | .index => t.index = s.index
  | .delayTimer => t.dt = s.dt
  | .soundTimer => t.st = s.st
  | .stack => t.sd = s.sd ∧ t.stk = s.stk
  | .display => t.fb = s.fb
  | .core => t.core = s.core

/-- From `s` to `t` nothing changed but the registers of `regs`, the parts of `parts`, the bytes of `bytes`, and `PC`
(40_sequencer.md R83). The parameters, the step's inputs and the agenda never change. -/
structure ChangesOnly (regs : Reg → Prop) (parts : List Part) (bytes : Nat → Prop) (s t : State) : Prop where
  otherRegs : ∀ r, ¬ regs r → t.getV r = s.getV r
  otherParts : ∀ p, p ∉ parts → p.same s t
  otherBytes : ∀ a, ¬ bytes a → t.readByte a = s.readByte a
  params : t.params = s.params
  started : t.started = s.started
  input : t.input = s.input
  draws : t.draws = s.draws
  agenda : t.agenda = s.agenda

/-- No register. -/
def noReg : Reg → Prop := fun _ => False

/-- No byte of memory. -/
def noByte : Nat → Prop := fun _ => False

/-- The bytes of a transfer of `length` bytes at `a`. -/
def span (a length : Nat) : Nat → Prop := fun q => a ≤ q ∧ q < a + length

/-- One instruction after another, stopping at the first fault or refusal. -/
def execAll : List Instr → State → Host.Outcome State Fault Refusal
  | [], s => .next s
  | i :: rest, s =>
    match exec i s with
    | .next t => execAll rest t
    | .fault r => .fault r
    | .refused r => .refused r

end Sys2Proof.Machine
end

