-- ==== Sys2Proof/Certificates/Slice0/Obligations.lean ====
section
/-! DEFINITION. The statements for the provers. Each names in its docstring the rule or section of spec/ it formalises. -/

open Sys2Proof Sys2Proof.Machine

/-! ## Encoding (30_encoding.md) -/

/-- One word of each family, and words with no row, decode as section 5's map says (30_encoding.md R70, R71, R77). -/
def Obligations.SampleWordsDecode : Prop :=
  decode 0x00E0 = .ok .cls ∧ decode 0x00EE = .ok .ret ∧ decode 0x1204 = .ok (.jpAddr 0x204) ∧
  decode 0x220A = .ok (.callAddr 0x20A) ∧ decode 0x3310 = .ok (.seVxKk 0x3 0x10) ∧
  decode 0x4310 = .ok (.sneVxKk 0x3 0x10) ∧ decode 0x5120 = .ok (.seVxVy 0x1 0x2) ∧
  decode 0x6A7B = .ok (.ldVxKk 0xA 0x7B) ∧ decode 0x7003 = .ok (.addVxKk 0x0 0x03) ∧
  decode 0x8F14 = .ok (.addVxVy 0xF 0x1) ∧ decode 0x801E = .ok (.shlVxVy 0x0 0x1) ∧
  decode 0x9120 = .ok (.sneVxVy 0x1 0x2) ∧ decode 0xA300 = .ok (.ldIAddr 0x300) ∧
  decode 0xB300 = .ok (.jpV0Addr 0x300) ∧ decode 0xC30F = .ok (.rndVxKk 0x3 0x0F) ∧
  decode 0xD125 = .ok (.drwVxVyN 0x1 0x2 0x5) ∧ decode 0xE39E = .ok (.skpVx 0x3) ∧
  decode 0xFA33 = .ok (.bcdVx 0xA) ∧ decode 0x5001 = .error .unrecognizedOperation ∧
  decode 0x0000 = .error .unrecognizedOperation ∧ decode 0xFFFF = .error .unrecognizedOperation

/-- Decoding the bytes of any instruction, whatever follows them, gives it back: no bit of a field is dropped and no
word needs a second one (30_encoding.md R66 to R70). -/
def Obligations.DecodeEncodeRoundTrip : Prop :=
  ∀ (i : Instr) (rest : List Byte), decodeBytes (encodeBytes i ++ rest) = .ok i

/-- Every legal word is the encoding of what it decodes to: each word has one meaning and every bit of it is used
(30_encoding.md R73, R74; the ignored `y` of a shift is kept in the term). -/
def Obligations.EncodeDecodeRoundTrip : Prop :=
  ∀ (w : Word) (i : Instr), decode w = .ok i → encode i = w

/-- The two-level tree of R70 and the match/mask map of R77 accept the same words, and a decoded word lies in its own
instruction's row (30_encoding.md sections 3 and 5). -/
def Obligations.DecoderAcceptsTheOpcodeMap : Prop :=
  ∀ w : Word, ((∃ i, decode w = .ok i) ↔ legalWord w = true) ∧
    ∀ i, decode w = .ok i → i.row ∈ opcodeMap ∧ i.row.holds w = true

/-- The map has 34 rows and no word matches two of them (30_encoding.md section 5). -/
def Obligations.OpcodeMapRowsAreDisjoint : Prop :=
  opcodeMap.length = 34 ∧
  opcodeMap.Pairwise fun a b => ∀ w : Word, ¬ (a.holds w = true ∧ b.holds w = true)

/-- The illegal words are exactly those R71 lists; the step that fetches one reports `DecodeFailure(w)` and changes
nothing but `CORE` (30_encoding.md R71). That the decoder's answer is always `unrecognizedOperation` is R75's inference
(marked derived) and the model's choice of error names, entry 37. -/
def Obligations.IllegalWordsAreRejected : Prop :=
  ∀ w : Word,
    let illegal :=
      (opOf w = 0x0 ∧ w ≠ 0x00E0 ∧ w ≠ 0x00EE) ∨
      (opOf w = 0x5 ∧ nOf w ≠ 0x0) ∨
      (opOf w = 0x8 ∧ nOf w ∈ [0x8#4, 0x9#4, 0xA#4, 0xB#4, 0xC#4, 0xD#4, 0xF#4]) ∨
      (opOf w = 0x9 ∧ nOf w ≠ 0x0) ∨
      (opOf w = 0xE ∧ kkOf w ∉ [0x9E#8, 0xA1#8]) ∨
      (opOf w = 0xF ∧ kkOf w ∉ [0x07#8, 0x0A#8, 0x15#8, 0x18#8, 0x1E#8, 0x29#8, 0x33#8, 0x55#8, 0x65#8])
    (illegal ↔ ∀ i, decode w ≠ .ok i) ∧
    (∀ e, decode w = .error e → e = .unrecognizedOperation) ∧
    ∀ s : State, illegal → s.fetch = .ok w →
      runInstruction s = .next { s with core := .failed (.decodeFailure w s.pc) }

/-! ## Construction and reset (70_reset_and_hazards.md) -/

/-- After construction every general register holds 0 and `PC` is `ENTRY`, for every choice of parameters
(10_state.md R18, R25). -/
def Obligations.ConstructionClearsRegistersAndSetsPc : Prop :=
  ∀ p : Params, (∀ r, (State.construct p).getV r = 0) ∧ (State.construct p).pc = p.entry

/-- The rest of the constructed state: memory holds `FONT` and zeros, the timers and the stack 0 (10_state.md sections 4
to 8), and, by the spec's decisions D5, D6 and D14 (entries 12, 13, 8), `I` = 0, every pixel off, `DIRTY` = 0 and
`CORE = Ready`. -/
def Obligations.ConstructionLeavesTheRest : Prop :=
  ∀ p : Params,
    let s := State.construct p
    s.index = 0 ∧ s.dt = 0 ∧ s.st = 0 ∧ s.sd = 0 ∧ (∀ k : Fin 16, s.stk[k.val] = 0) ∧
    (∀ k : Fin 80, s.readByte k.val = p.font[k.val]) ∧ (∀ a, 80 ≤ a → s.readByte a = 0) ∧
    (∀ q, s.fb.isLit q = false) ∧ s.fb.dirty = false ∧ s.core = .ready ∧ s.params = p ∧ s.started = false

/-- The reset state, and every constructed state whose `ENTRY` is at most 0x10FE, meets the invariants. That
`State.reset` does rests on the model's `ENTRY` (entry 3). -/
def Obligations.ResetMeetsTheInvariants : Prop :=
  (State.reset.memOk = true ∧ State.reset.fbOk = true ∧ State.reset.pcOk) ∧
  ∀ p : Params, (State.construct p).memOk = true ∧ (State.construct p).fbOk = true ∧
    (p.entry.toNat ≤ 0x10FE → (State.construct p).pcOk)

/-- `CONSTRUCT` takes the default font where none is given, a caller's font of 80 bytes as it is, and refuses any other
length (70_reset_and_hazards.md R156, the spec's decision D22, entry 22). -/
def Obligations.ConstructTakesOnlyEightyByteFonts : Prop :=
  ∀ (entry : Word) (g : Geom) (ss : ShiftSrc) (ks : KeySrc),
    construct entry none g ss ks = .next (State.construct ⟨entry, defaultFont, g, ss, ks⟩) ∧
    (∀ bytes : List Byte, bytes.length ≠ 80 →
      construct entry (some bytes) g ss ks = .refused (.fontLength bytes.length)) ∧
    (∀ bytes : List Byte, bytes.length = 80 → ∃ font : Font, font.toList = bytes ∧
      construct entry (some bytes) g ss ks = .next (State.construct ⟨entry, font, g, ss, ks⟩))

/-! ## The step (40_sequencer.md) -/

/-- When the two bytes at `PC` decode to an instruction, the step is that instruction's execution, with the step's inputs
at hand, whether the agenda gives the core's move or the host's free choice does (40_sequencer.md section 1; entries 1, 2).
`s₁` is the state with that move taken. -/
def Obligations.StepRunsTheDecodedInstruction : Prop :=
  ∀ (s : State) (i : Instr), s.core = .ready → s.pc.toNat + 1 < memSize →
    decode (wordOfBytes (s.readByte s.pc.toNat) (s.readByte (s.pc.toNat + 1))) = .ok i →
    (∀ input s₁, s.nextMove = (.proceed input, s₁) → step s = exec i { s₁ with input := input, started := true }) ∧
    ∀ input rest, s.agenda = .proceed input :: rest →
      step s = exec i { s with agenda := rest, input := input, started := true }

/-- The fetched word is 256 times the byte at `PC` plus the byte at `PC + 1`; where `PC + 1` is past the end of memory the
step reports `BoundsFailure(Fetch, PC)` and nothing else changes (20_memory.md R50, R52). -/
def Obligations.FetchIsBigEndianAndBounded : Prop :=
  ∀ s : State,
    (s.pc.toNat + 1 < memSize → ∃ w, s.fetch = .ok w ∧
      w.toNat = 256 * (s.readByte s.pc.toNat).toNat + (s.readByte (s.pc.toNat + 1)).toNat) ∧
    (memSize ≤ s.pc.toNat + 1 →
      runInstruction s = .next { s with core := .failed (.boundsFailure .fetch s.pc s.pc.toNat) })

/-- After a failure every later `STEP` gives the same report and changes nothing, and no move of the host takes the
failure away or changes a register, `PC`, `I`, the stack or a pixel (40_sequencer.md section 2: the spec's decision D14,
entry 8). -/
def Obligations.FailureIsFinal : Prop :=
  ∀ (s : State) (report : Report), s.core = .failed report →
    s.stepResult = .failure report ∧ (∀ input s₁, s.nextMove = (.proceed input, s₁) → step s = .next s₁) ∧
    (∀ input rest, s.agenda = .proceed input :: rest → step s = .next { s with agenda := rest }) ∧
    ∀ t, step s = .next t → t.core = .failed report ∧ t.v = s.v ∧ t.pc = s.pc ∧ t.index = s.index ∧ t.sd = s.sd ∧
      t.stk = s.stk ∧ t.fb.lit = s.fb.lit

/-- A failing `STEP` returns the report with the failing instruction's `PC` and changes nothing but `CORE`, over every
instruction and every kind of failure (60_exceptions.md R141; the report's `pc`, R139, R140). -/
def Obligations.FailingStepChangesOnlyCore : Prop :=
  ∀ (s t : State) (report : Report), s.core = .ready → runInstruction s = .next t → t.core = .failed report →
    t = { s with core := .failed report } ∧ t.stepResult = .failure report ∧ report.pc = s.pc

/-- Which instruction raises which bounds failure, on what condition and with what `info` (60_exceptions.md section 1; the
`info` values are the spec's decision D24, the last two kinds D10 and D4: entries 25, 16, 10). -/
def Obligations.EachInstructionRaisesItsOwnFailure : Prop :=
  ∀ (i : Instr) (s t : State) (report : Report), s.core = .ready → exec i s = .next t → t.core = .failed report →
    match report with
    | .decodeFailure _ _ => False
    | .boundsFailure .fetch _ _ => False
    | .boundsFailure .memRead _ info =>
      ((∃ x y n, i = .drwVxVyN x y n ∧ 0 < n.toNat ∧ memSize ≤ s.index.toNat + n.toNat - 1) ∨
        ∃ x, i = .ldVxMem x ∧ memSize ≤ s.index.toNat + x.toNat) ∧ info = max s.index.toNat memSize
    | .boundsFailure .memWrite _ info =>
      ((∃ x, i = .bcdVx x ∧ memSize ≤ s.index.toNat + 2) ∨
        ∃ x, i = .ldMemVx x ∧ memSize ≤ s.index.toNat + x.toNat) ∧ info = max s.index.toNat memSize
    | .boundsFailure .stackPush _ info => (∃ nnn, i = .callAddr nnn) ∧ s.sd = 16 ∧ info = 16
    | .boundsFailure .stackPop _ info => i = .ret ∧ s.sd = 0 ∧ info = 0
    | .boundsFailure .keyRange _ info =>
      ∃ x, (i = .skpVx x ∨ i = .sknpVx x) ∧ 0xF < (s.keyNumber x).toNat ∧ info = (s.keyNumber x).toNat
    | .boundsFailure .indexOverflow _ info =>
      ∃ x, i = .addIVx x ∧ 0xFFFF < s.index.toNat + (s.getV x).toNat ∧ info = s.index.toNat + (s.getV x).toNat

/-! ## Invariants every step keeps -/

/-- Every step keeps every address memory lists below 4096 (20_memory.md R48, R55) and keeps the list in the canonical form,
rising and with no entry equal to what its address reads as unlisted; that form is the model's own, entry 27. -/
def Obligations.StepKeepsMemoryCanonical : Prop :=
  ∀ s t : State, s.memOk = true → step s = .next t → t.memOk = true

/-- Every step keeps the lit pixels inside the `W` x `H` grid (10_state.md R36) and their list in order without repeats; the
list and its order are the model's own choice, entry 26. -/
def Obligations.StepKeepsPixelsInTheGrid : Prop :=
  ∀ s t : State, s.fbOk = true → step s = .next t → t.fbOk = true

/-- Every step keeps `PC` at most 0x10FE and every live stack entry at most 0x1000, so that no 16-bit sum of the sequencer
wraps (10_state.md section 3, 41_control_transfer.md; the width of `PC` is the spec's decision D2, entry 9). -/
def Obligations.StepKeepsPcInRange : Prop :=
  ∀ s t : State, s.pcOk → step s = .next t → t.pcOk

/-- No step changes a parameter, the framebuffer's size among them (00_scope.md section 2; D25, entry 7). -/
def Obligations.StepKeepsParameters : Prop :=
  ∀ s t : State, step s = .next t → t.params = s.params

/-! ## Whole-machine rules -/

/-- `I` is written by `Annn`, `Fx1E`, `Fx29` only; `DT` by `Fx15` and `ST` by `Fx18` only; the stack by `CALL` and `RET`
only; the framebuffer and `DIRTY` by `CLS` and `DRW` only; memory by `Fx33` and `Fx55` only (40_sequencer.md section 1, the
spec's decision D8, entry 15; 10_state.md sections 4 to 7; 20_memory.md section 1). -/
def Obligations.OnlyNamedInstructionsWriteEachPart : Prop :=
  ∀ (i : Instr) (s t : State), exec i s = .next t →
    (t.index ≠ s.index → (∃ nnn, i = .ldIAddr nnn) ∨ (∃ x, i = .addIVx x) ∨ ∃ x, i = .ldFVx x) ∧
    (t.dt ≠ s.dt → ∃ x, i = .ldDtVx x) ∧
    (t.st ≠ s.st → ∃ x, i = .ldStVx x) ∧
    (t.sd ≠ s.sd ∨ t.stk ≠ s.stk → i = .ret ∨ ∃ nnn, i = .callAddr nnn) ∧
    (t.fb ≠ s.fb → i = .cls ∨ ∃ x y n, i = .drwVxVyN x y n) ∧
    ((∃ a, t.readByte a ≠ s.readByte a) → (∃ x, i = .bcdVx x) ∨ ∃ x, i = .ldMemVx x)

/-- A register the access table does not list as written by an instruction is unchanged by it; in particular `7xkk` and
the logical instructions leave `VF` unless they name it (10_state.md sections 1 and 2; D8, entry 15). -/
def Obligations.RegistersWrittenAreThoseOfTheAccessTable : Prop :=
  ∀ (i : Instr) (s t : State) (r : Reg), exec i s = .next t → i.writesReg r = false → t.getV r = s.getV r

/-- A register the access table does not list as read by an instruction cannot influence it: with that register changed
beforehand the next state is the same but for that register, and the same outright or keeping the change in it
(10_state.md section 1, the access table). -/
def Obligations.UnreadRegistersDoNotMatter : Prop :=
  ∀ (i : Instr) (s : State) (r : Reg) (b : Byte), i.readsReg s.params r = false →
    ∃ t u, exec i s = .next t ∧ exec i (s.setV r b) = .next u ∧
      (u = t.setV r b ∨ (i.writesReg r = true ∧ u = t))

/-- After a flag-writing instruction that completes, `VF` is 0 or 1 (10_state.md section 2; with `VF` written last, D7,
entry 14). -/
def Obligations.FlagIsZeroOrOne : Prop :=
  ∀ (i : Instr) (s t : State), i.writesFlag = true → s.core = .ready → exec i s = .next t → t.core = .ready →
    t.getVF = 0 ∨ t.getVF = 1

/-- `ST` is read by no instruction: two states that differ only in it go to states that differ at most in it
(10_state.md section 5). -/
def Obligations.SoundTimerIsReadByNoInstruction : Prop :=
  ∀ (i : Instr) (s : State) (b : Byte), ∃ t u, exec i s = .next t ∧ exec i (s.setSt b) = .next u ∧
    u.setSt 0 = t.setSt 0

/-- `DIRTY` is set by `CLS` and by every row `DRW` draws, cleared by the snapshot only, and read by no instruction
(10_state.md R37). -/
def Obligations.DirtyFlagIsSetOnWritesAndClearedBySnapshot : Prop :=
  (∀ s t : State, exec .cls s = .next t → t.fb.dirty = true) ∧
  (∀ (g : Geom) (fb : Framebuffer) (byte : Byte) (cx cy : Nat), (fb.drawRow g byte cx cy).1.dirty = true) ∧
  (∀ (x y : Reg) (n : Nibble) (s : State), n ≠ 0 → s.index.toNat + n.toNat ≤ memSize →
    ∃ t, exec (.drwVxVyN x y n) s = .next t ∧ t.fb.dirty = true) ∧
  (∀ s t : State, step s = .next t → s.fb.dirty = true → t.fb.dirty = false →
    s.nextMove.1 = .snapshot) ∧
  (∀ s : State, s.snapshot.2.fb.dirty = false) ∧
  (∀ (i : Instr) (s : State) (d : Bool), ∃ t u, exec i s = .next t ∧
    exec i { s with fb := { s.fb with dirty := d } } = .next u ∧
    ({ u with fb := { u.fb with dirty := false } } : State) = { t with fb := { t.fb with dirty := false } })

/-! ## The host's transactions (10_state.md section 10) -/

/-- `TICK` takes one from each timer, floored at 0, and changes nothing else (45_timers_keys.md R135). -/
def Obligations.TickCountsEachTimerDown : Prop :=
  ∀ s : State, s.tick.dt.toNat = s.dt.toNat - 1 ∧ s.tick.st.toNat = s.st.toNat - 1 ∧
    s.tick = { s with dt := s.tick.dt, st := s.tick.st } ∧
    ∀ s₁, s.nextMove = (.tick, s₁) → step s = .next s₁.tick

/-- After `n` ticks each timer has lost `n`, never below 0; so a timer set by `Fx15` and read back by `Fx07` after `n` ticks
reads `max(v - n, 0)` (45_timers_keys.md section on `TICK`). -/
def Obligations.RepeatedTicksStopAtZero : Prop :=
  ∀ (n : Nat) (s : State),
    (State.tick^[n] s).dt.toNat = s.dt.toNat - n ∧ (State.tick^[n] s).st.toNat = s.st.toNat - n ∧
    ∀ x y : Reg, ∃ t u, exec (.ldDtVx x) s = .next t ∧ exec (.ldVxDt y) (State.tick^[n] t) = .next u ∧
      (u.getV y).toNat = (s.getV x).toNat - n

/-- `SNAPSHOT` returns the `W` x `H` grid and clears `DIRTY`; `DIRTY?` returns it and `DIMENSIONS` returns `(W, H)`; nothing
else changes (10_state.md R45). -/
def Obligations.SnapshotReturnsTheGridAndClearsDirty : Prop :=
  ∀ s : State,
    (s.params.geom = .standard → s.dimensions = (64, 32)) ∧ (s.params.geom = .extended → s.dimensions = (128, 64)) ∧
    s.snapshot.1.length = s.dimensions.2 ∧
    (∀ py, py < s.dimensions.2 → ∃ row, s.snapshot.1[py]? = some row ∧ row.length = s.dimensions.1 ∧
      ∀ px, px < s.dimensions.1 → row[px]? = some (s.fb.isLit ⟨px, py⟩)) ∧
    s.isDirty = s.fb.dirty ∧
    (∀ s₁, s.nextMove = (.snapshot, s₁) → step s = .next { s₁ with fb := { s₁.fb with dirty := false } }) ∧
    (∀ s₁, s.nextMove = (.isDirty, s₁) ∨ s.nextMove = (.dimensions, s₁) → step s = .next s₁)

/-- `LOAD` before the first `STEP` copies the bytes verbatim to the given address, `PC` where none is given, and changes
nothing else; where they run past the end of memory it is a load error with nothing written; no bytes change nothing; on a
constructed state the address not given is `ENTRY` (20_memory.md R60). -/
def Obligations.LoadCopiesVerbatimOrNothing : Prop :=
  (∀ (s : State) (bytes : List Byte) (start : Option Nat), s.started = false →
    let a := start.getD s.pc.toNat
    (a + bytes.length ≤ memSize → ∃ t, s.load bytes start = .next t ∧ t.pc = s.pc ∧
      (∀ k (h : k < bytes.length), t.readByte (a + k) = bytes[k]) ∧
      ChangesOnly noReg [] (span a bytes.length) s t) ∧
    (memSize < a + bytes.length → s.load bytes start = .fault (.loadPastEnd a bytes.length)) ∧
    (∀ t, s.load [] start = .next t → t = s)) ∧
  ∀ (p : Params) (bytes : List Byte),
    (State.construct p).load bytes none = (State.construct p).load bytes (some p.entry.toNat)

/-- After the first `STEP` a `LOAD` is refused: a `STEP` marks the run as begun, every later step keeps the mark, and a
marked state refuses (20_memory.md section 6, the spec's decision D27, entry 21). -/
def Obligations.LoadAfterTheFirstStepIsRefused : Prop :=
  (∀ (s : State) (bytes : List Byte) (start : Option Nat), s.started = true →
    s.load bytes start = .refused .loadAfterStart) ∧
  (∀ s t : State, step s = .next t → s.started = true → t.started = true) ∧
  (∀ (s t : State) (input : StepInput), s.core = .ready → s.nextMove.1 = .proceed input → step s = .next t →
    t.started = true)

/-- While `Fx0A` is suspended the core's move completes it with the provider's key, or, with none, changes nothing; a tick
in between counts each timer down and leaves the wait; a timeout is refused (the spec's decision D31, entry 23); and, over
every step whatever the agenda or the host's free choice, the wait goes on with the same register, registers, `PC`, `I` and
stack unless the move was the core's and its inputs held a key (40_sequencer.md section 2, 45_timers_keys.md; D13, D26,
entries 19, 20). -/
def Obligations.KeyWaitEndsOnlyWithAKey : Prop :=
  ∀ (s : State) (x : Reg), s.core = .waitKey x →
    (∀ input s₁, s.nextMove = (.proceed input, s₁) → input.key = none →
      step s = .next { s₁ with input := input, started := true }) ∧
    (∀ input s₁ k, s.nextMove = (.proceed input, s₁) → input.key = some k → ∃ t, step s = .next t ∧
      t.getV x = k.zeroExtend 8 ∧ t.pc = s.pc + 2 ∧ t.core = .ready ∧
      ChangesOnly (· = x) [.core] noByte { s₁ with input := input, started := true } t) ∧
    (∀ s₁, s.nextMove = (.tick, s₁) → ∃ t, step s = .next t ∧ t.dt.toNat = s.dt.toNat - 1 ∧
      t.st.toNat = s.st.toNat - 1 ∧ t.core = .waitKey x ∧ t.pc = s.pc ∧
      ChangesOnly noReg [.delayTimer, .soundTimer] noByte s₁ t) ∧
    (∀ s₁, s.nextMove = (.noKey, s₁) → step s = .refused .keyWaitTimeout) ∧
    ∀ t, step s = .next t →
      (t.core = .waitKey x ∧ t.v = s.v ∧ t.pc = s.pc ∧ t.index = s.index ∧ t.sd = s.sd ∧ t.stk = s.stk) ∨
      ∃ input k, s.nextMove.1 = .proceed input ∧ input.key = some k

/-! ## Control transfer (41_control_transfer.md) -/

/-- RET with a live entry pops it into `PC`; with none it reports `StackPop` and changes nothing (R92). -/
def Obligations.RetPopsTheReturnAddress : Prop :=
  ∀ s : State,
    (∀ h : 0 < s.sd.val, ∃ t, exec .ret s = .next t ∧ t.pc = s.stk[s.sd.val - 1] ∧ t.sd.val = s.sd.val - 1 ∧
      t.stk = s.stk ∧ ChangesOnly noReg [.stack] noByte s t) ∧
    (s.sd = 0 → exec .ret s = .next { s with core := .failed (.boundsFailure .stackPop s.pc 0) })

/-- CALL pushes the address of the next instruction and jumps; with 16 live entries it reports `StackPush` and changes
nothing (R94). -/
def Obligations.CallPushesTheNextAddress : Prop :=
  ∀ (nnn : Addr) (s : State),
    (∀ h : s.sd.val < 16, ∃ t, exec (.callAddr nnn) s = .next t ∧ t.pc = nnn.zeroExtend 16 ∧
      t.sd.val = s.sd.val + 1 ∧ t.stk[s.sd.val] = s.pc + 2 ∧
      (∀ k : Fin 16, k.val ≠ s.sd.val → t.stk[k.val] = s.stk[k.val]) ∧ ChangesOnly noReg [.stack] noByte s t) ∧
    (s.sd = 16 → exec (.callAddr nnn) s = .next { s with core := .failed (.boundsFailure .stackPush s.pc 16) })

/-- Nested calls, as many as there is room for, and as many returns come back to the instruction after the first call with
the stack as it was; one call more than there is room for reports `StackPush` (10_state.md section 6,
95_test_vectors.md L1.6). -/
def Obligations.NestedCallsReturnInOrder : Prop :=
  ∀ (targets : List Addr) (s : State), s.sd.val + targets.length ≤ 16 →
    ∃ t u, execAll (targets.map Instr.callAddr) s = .next t ∧ t.sd.val = s.sd.val + targets.length ∧
      execAll (List.replicate targets.length .ret) t = .next u ∧ u.sd = s.sd ∧
      u.pc = (if targets = [] then s.pc else s.pc + 2) ∧
      (∀ k : Fin 16, k.val < s.sd.val → u.stk[k.val] = s.stk[k.val]) ∧
      (t.sd.val = 16 → ∀ nnn, exec (.callAddr nnn) t =
        .next { t with core := .failed (.boundsFailure .stackPush t.pc 16) })

/-- JP goes to `nnn` and changes nothing else (R93). -/
def Obligations.JpGoesToItsAddress : Prop :=
  ∀ (nnn : Addr) (s : State), ∃ t, exec (.jpAddr nnn) s = .next t ∧ t.pc.toNat = nnn.toNat ∧
    ChangesOnly noReg [] noByte s t

/-- JP V0 goes to the exact sum of `V0` and `nnn`, never wrapped, and changes nothing else (R99). -/
def Obligations.JpV0GoesToTheExactSum : Prop :=
  ∀ (nnn : Addr) (s : State), ∃ t, exec (.jpV0Addr nnn) s = .next t ∧
    t.pc.toNat = (s.getV 0).toNat + nnn.toNat ∧ ChangesOnly noReg [] noByte s t

/-- SE and SNE with a byte: `PC + 4` where the condition holds, else `PC + 2`; nothing else changes (R95, R96). -/
def Obligations.ByteSkipsCompareAndAdvance : Prop :=
  ∀ (x : Reg) (kk : Byte) (s : State),
    (∃ t, exec (.seVxKk x kk) s = .next t ∧ t.pc = (if s.getV x = kk then s.pc + 4 else s.pc + 2) ∧
      ChangesOnly noReg [] noByte s t) ∧
    (∃ t, exec (.sneVxKk x kk) s = .next t ∧ t.pc = (if s.getV x ≠ kk then s.pc + 4 else s.pc + 2) ∧
      ChangesOnly noReg [] noByte s t)

/-- SE and SNE with a register: the same on two registers (R97, R98). -/
def Obligations.RegisterSkipsCompareAndAdvance : Prop :=
  ∀ (x y : Reg) (s : State),
    (∃ t, exec (.seVxVy x y) s = .next t ∧ t.pc = (if s.getV x = s.getV y then s.pc + 4 else s.pc + 2) ∧
      ChangesOnly noReg [] noByte s t) ∧
    (∃ t, exec (.sneVxVy x y) s = .next t ∧ t.pc = (if s.getV x ≠ s.getV y then s.pc + 4 else s.pc + 2) ∧
      ChangesOnly noReg [] noByte s t)

/-! ## ALU and moves (42_alu.md) -/

/-- LD Vx, kk and LD Vx, Vy write the byte or the other register, `VF` like any other register (R102, R104). -/
def Obligations.LoadsWriteOneRegister : Prop :=
  ∀ (x y : Reg) (kk : Byte) (s : State),
    (∃ t, exec (.ldVxKk x kk) s = .next t ∧ t.getV x = kk ∧ t.pc = s.pc + 2 ∧ ChangesOnly (· = x) [] noByte s t) ∧
    (∃ t, exec (.ldVxVy x y) s = .next t ∧ t.getV x = s.getV y ∧ t.pc = s.pc + 2 ∧
      ChangesOnly (· = x) [] noByte s t)

/-- ADD Vx, kk adds modulo 256 and writes no flag (R103). -/
def Obligations.AddByteWrapsWithoutFlag : Prop :=
  ∀ (x : Reg) (kk : Byte) (s : State), ∃ t, exec (.addVxKk x kk) s = .next t ∧
    (t.getV x).toNat = ((s.getV x).toNat + kk.toNat) % 256 ∧ t.pc = s.pc + 2 ∧ ChangesOnly (· = x) [] noByte s t

/-- OR, AND and XOR write the bitwise result and no flag (R105, R106, R107). -/
def Obligations.LogicWritesTheBitwiseResult : Prop :=
  ∀ (x y : Reg) (s : State),
    (∃ t, exec (.orVxVy x y) s = .next t ∧ t.getV x = s.getV x ||| s.getV y ∧ t.pc = s.pc + 2 ∧
      ChangesOnly (· = x) [] noByte s t) ∧
    (∃ t, exec (.andVxVy x y) s = .next t ∧ t.getV x = s.getV x &&& s.getV y ∧ t.pc = s.pc + 2 ∧
      ChangesOnly (· = x) [] noByte s t) ∧
    (∃ t, exec (.xorVxVy x y) s = .next t ∧ t.getV x = s.getV x ^^^ s.getV y ∧ t.pc = s.pc + 2 ∧
      ChangesOnly (· = x) [] noByte s t)

/-- ADD Vx, Vy writes the sum modulo 256, then `VF` = 1 exactly where the sum exceeds 255, so that the flag remains where
`x` = 0xF (42_alu.md, ADD Vx, Vy; the order of the writes is the spec's decision D7, entry 14). -/
def Obligations.AddRegistersWritesSumAndCarry : Prop :=
  ∀ (x y : Reg) (s : State), ∃ t, exec (.addVxVy x y) s = .next t ∧
    (x ≠ regF → (t.getV x).toNat = ((s.getV x).toNat + (s.getV y).toNat) % 256) ∧
    t.getVF = (if 255 < (s.getV x).toNat + (s.getV y).toNat then 1 else 0) ∧ t.pc = s.pc + 2 ∧
    ChangesOnly (fun r => r = x ∨ r = regF) [] noByte s t

/-- SUB and SUBN write the difference modulo 256, then `VF` = 1 exactly where no borrow occurred (42_alu.md, SUB Vx, Vy and
SUBN Vx, Vy; D7, entry 14). -/
def Obligations.SubtractionsWriteDifferenceAndNoBorrow : Prop :=
  ∀ (x y : Reg) (s : State),
    (∃ t, exec (.subVxVy x y) s = .next t ∧
      (x ≠ regF → (t.getV x).toNat = (256 + (s.getV x).toNat - (s.getV y).toNat) % 256) ∧
      t.getVF = (if (s.getV y).toNat ≤ (s.getV x).toNat then 1 else 0) ∧ t.pc = s.pc + 2 ∧
      ChangesOnly (fun r => r = x ∨ r = regF) [] noByte s t) ∧
    (∃ t, exec (.subnVxVy x y) s = .next t ∧
      (x ≠ regF → (t.getV x).toNat = (256 + (s.getV y).toNat - (s.getV x).toNat) % 256) ∧
      t.getVF = (if (s.getV x).toNat ≤ (s.getV y).toNat then 1 else 0) ∧ t.pc = s.pc + 2 ∧
      ChangesOnly (fun r => r = x ∨ r = regF) [] noByte s t)

/-- SHR and SHL shift `V[x]`, or `V[y]` under `SHIFT_SRC` = `VY`, by one, then put the bit shifted out into `VF` (42_alu.md,
SHR and SHL; D7 and D9, entries 14, 6). -/
def Obligations.ShiftsMoveOneBitIntoTheFlag : Prop :=
  ∀ (x y : Reg) (s : State),
    let source := if s.params.shiftSrc = .vx then s.getV x else s.getV y
    (∃ t, exec (.shrVxVy x y) s = .next t ∧ (x ≠ regF → (t.getV x).toNat = source.toNat / 2) ∧
      t.getVF.toNat = source.toNat % 2 ∧ t.pc = s.pc + 2 ∧ ChangesOnly (fun r => r = x ∨ r = regF) [] noByte s t) ∧
    (∃ t, exec (.shlVxVy x y) s = .next t ∧ (x ≠ regF → (t.getV x).toNat = source.toNat * 2 % 256) ∧
      t.getVF.toNat = source.toNat / 128 ∧ t.pc = s.pc + 2 ∧ ChangesOnly (fun r => r = x ∨ r = regF) [] noByte s t)

/-- RND writes the step's random byte under the mask: no bit outside `kk`, and any byte for `kk` = 0xFF, for every random
byte (R113). -/
def Obligations.RndMasksTheRandomByte : Prop :=
  ∀ (x : Reg) (kk : Byte) (s : State), ∃ t, exec (.rndVxKk x kk) s = .next t ∧
    t.getV x = s.input.random &&& kk ∧ t.pc = s.pc + 2 ∧ ChangesOnly (· = x) [] noByte s t

/-! ## Index register and memory (43_index_memory.md) -/

/-- LD I, addr writes `nnn`; LD F, Vx writes five times the whole register, exactly (R116, R118). -/
def Obligations.IndexLoadsAreExact : Prop :=
  ∀ (nnn : Addr) (x : Reg) (s : State),
    (∃ t, exec (.ldIAddr nnn) s = .next t ∧ t.index.toNat = nnn.toNat ∧ t.pc = s.pc + 2 ∧
      ChangesOnly noReg [.index] noByte s t) ∧
    (∃ t, exec (.ldFVx x) s = .next t ∧ t.index.toNat = (s.getV x).toNat * 5 ∧ t.pc = s.pc + 2 ∧
      ChangesOnly noReg [.index] noByte s t)

/-- ADD I, Vx adds exactly, and reports `IndexOverflow` where the sum exceeds 16 bits (43_index_memory.md, ADD I, Vx; the
failure is the spec's decision D4, entry 10). -/
def Obligations.IndexAddIsExactOrFails : Prop :=
  ∀ (x : Reg) (s : State),
    (s.index.toNat + (s.getV x).toNat ≤ 0xFFFF → ∃ t, exec (.addIVx x) s = .next t ∧
      t.index.toNat = s.index.toNat + (s.getV x).toNat ∧ t.pc = s.pc + 2 ∧ ChangesOnly noReg [.index] noByte s t) ∧
    (0xFFFF < s.index.toNat + (s.getV x).toNat → exec (.addIVx x) s =
      .next { s with core := .failed (.boundsFailure .indexOverflow s.pc (s.index.toNat + (s.getV x).toNat)) })

/-- BCD stores the hundreds, tens and units of `V[x]`, each at its own address; where `I + 2` is past the end it reports
`MemWrite` and stores none (R119). -/
def Obligations.BcdStoresThreeDigits : Prop :=
  ∀ (x : Reg) (s : State),
    (s.index.toNat + 2 < memSize → ∃ t, exec (.bcdVx x) s = .next t ∧
      (t.readByte s.index.toNat).toNat = (s.getV x).toNat / 100 ∧
      (t.readByte (s.index.toNat + 1)).toNat = (s.getV x).toNat / 10 % 10 ∧
      (t.readByte (s.index.toNat + 2)).toNat = (s.getV x).toNat % 10 ∧ t.pc = s.pc + 2 ∧
      ChangesOnly noReg [] (span s.index.toNat 3) s t) ∧
    (memSize ≤ s.index.toNat + 2 → exec (.bcdVx x) s =
      .next { s with core := .failed (.boundsFailure .memWrite s.pc (max s.index.toNat memSize)) })

/-- LD [I], Vx stores `V[0]`..`V[x]` at `I`..`I + x` and leaves `I`; where `I + x` is past the end it reports `MemWrite` and
stores nothing (43_index_memory.md, LD [I], Vx; that `I` is unchanged is the spec's decision D8, entry 15). -/
def Obligations.StoreRegistersUpToX : Prop :=
  ∀ (x : Reg) (s : State),
    (s.index.toNat + x.toNat < memSize → ∃ t, exec (.ldMemVx x) s = .next t ∧
      (∀ r : Reg, r.toNat ≤ x.toNat → t.readByte (s.index.toNat + r.toNat) = s.getV r) ∧ t.pc = s.pc + 2 ∧
      ChangesOnly noReg [] (span s.index.toNat (x.toNat + 1)) s t) ∧
    (memSize ≤ s.index.toNat + x.toNat → exec (.ldMemVx x) s =
      .next { s with core := .failed (.boundsFailure .memWrite s.pc (max s.index.toNat memSize)) })

/-- LD Vx, [I] loads `V[0]`..`V[x]` from `I`..`I + x` and leaves `I`; where `I + x` is past the end it reports `MemRead` and
loads nothing (43_index_memory.md, LD Vx, [I]; D8, entry 15). -/
def Obligations.LoadRegistersUpToX : Prop :=
  ∀ (x : Reg) (s : State),
    (s.index.toNat + x.toNat < memSize → ∃ t, exec (.ldVxMem x) s = .next t ∧
      (∀ r : Reg, r.toNat ≤ x.toNat → t.getV r = s.readByte (s.index.toNat + r.toNat)) ∧ t.pc = s.pc + 2 ∧
      ChangesOnly (fun r => r.toNat ≤ x.toNat) [] noByte s t) ∧
    (memSize ≤ s.index.toNat + x.toNat → exec (.ldVxMem x) s =
      .next { s with core := .failed (.boundsFailure .memRead s.pc (max s.index.toNat memSize)) })

/-- A word two neighbouring registers are stored to is what a fetch there reads next: no fence, no delay (20_memory.md
section 7, the very next fetch). -/
def Obligations.StoredBytesAreFetchedNext : Prop :=
  ∀ (x r : Reg) (s t : State), r.toNat < x.toNat → exec (.ldMemVx x) s = .next t → t.core = s.core →
    s.core = .ready → t.pc.toNat = s.index.toNat + r.toNat →
    t.fetch = .ok (wordOfBytes (s.getV r) (s.getV (r + 1)))

/-! ## Display (44_display.md) -/

/-- CLS turns every pixel off and sets `DIRTY`; nothing else changes (R124, R126). -/
def Obligations.ClsTurnsEveryPixelOff : Prop :=
  ∀ s : State, ∃ t, exec .cls s = .next t ∧ (∀ q, t.fb.isLit q = false) ∧ t.fb.dirty = true ∧ t.pc = s.pc + 2 ∧
    ChangesOnly noReg [.display] noByte s t

/-- `draw_row` turns over the pixel of each set bit, the most significant leftmost, wrapped at both edges; it leaves every
other pixel, sets `DIRTY` always, and answers whether a set bit fell on a lit pixel (R125). -/
def Obligations.DrawRowXorsEightPixels : Prop :=
  ∀ (g : Geom) (fb : Framebuffer) (byte : Byte) (cx cy : Nat),
    let at8 := fun i => (⟨(cx + i) % g.width, cy % g.height⟩ : Pixel)
    let r := fb.drawRow g byte cx cy
    (∀ i, i < 8 → r.1.isLit (at8 i) = (fb.isLit (at8 i) ^^ byte.getLsbD (7 - i))) ∧
    (∀ q, (∀ i, i < 8 → q ≠ at8 i) → r.1.isLit q = fb.isLit q) ∧
    (r.2 = true ↔ ∃ i, i < 8 ∧ byte.getLsbD (7 - i) = true ∧ fb.isLit (at8 i) = true) ∧
    r.1.dirty = true

/-- DRW turns over the pixel of every set bit of its `n` rows once, at `(V[x], V[y])` wrapped at both edges, leaves every other
pixel, and writes `VF` = 1 exactly where a set bit fell on a lit pixel; where a sprite byte is past the end it reports
`MemRead` and draws nothing (44_display.md, DRW Vx, Vy, n; `n` = 0 is the spec's decision D15, entry 17). -/
def Obligations.DrwXorsTheSpriteOnce : Prop :=
  ∀ (x y : Reg) (n : Nibble) (s : State),
    let g := s.params.geom
    let place := fun r i => (⟨((s.getV x).toNat + i) % g.width, ((s.getV y).toNat + r) % g.height⟩ : Pixel)
    let bit := fun r i => (s.readByte (s.index.toNat + r)).getLsbD (7 - i)
    (n = 0 ∨ s.index.toNat + n.toNat - 1 < memSize → ∃ t, exec (.drwVxVyN x y n) s = .next t ∧
      (∀ r i, r < n.toNat → i < 8 → t.fb.isLit (place r i) = (s.fb.isLit (place r i) ^^ bit r i)) ∧
      (∀ q, (∀ r i, r < n.toNat → i < 8 → q ≠ place r i) → t.fb.isLit q = s.fb.isLit q) ∧
      (t.getVF = 1 ∨ t.getVF = 0) ∧
      (t.getVF = 1 ↔ ∃ r i, r < n.toNat ∧ i < 8 ∧ bit r i = true ∧ s.fb.isLit (place r i) = true) ∧
      t.fb.dirty = (if n = 0 then s.fb.dirty else true) ∧ t.pc = s.pc + 2 ∧
      ChangesOnly (· = regF) [.display] noByte s t) ∧
    (n ≠ 0 → memSize ≤ s.index.toNat + n.toNat - 1 → exec (.drwVxVyN x y n) s =
      .next { s with core := .failed (.boundsFailure .memRead s.pc (max s.index.toNat memSize)) })

/-- The same sprite drawn twice at the same place leaves every pixel as it was; from an all-off framebuffer the first draw
reports no collision and the second one exactly where some sprite bit is set (95_test_vectors.md L1.4). -/
def Obligations.DrawingTwiceErases : Prop :=
  ∀ (x y : Reg) (n : Nibble) (s : State), x ≠ regF → y ≠ regF → s.index.toNat + n.toNat ≤ memSize →
    ∃ t u, exec (.drwVxVyN x y n) s = .next t ∧ exec (.drwVxVyN x y n) t = .next u ∧
      (∀ q, u.fb.isLit q = s.fb.isLit q) ∧
      ((∀ q, s.fb.isLit q = false) → t.getVF = 0 ∧
        (u.getVF = 1 ↔ ∃ r, r < n.toNat ∧ s.readByte (s.index.toNat + r) ≠ 0))

/-! ## Keys and timers (45_timers_keys.md) -/

/-- SKP and SKNP skip by the poller's answer for key `V[x]`, or `x` under `KEY_SRC` = `FIELD`; a key number above 0xF reports
`KeyRange` (45_timers_keys.md, SKP Vx and SKNP Vx; the failure is the spec's decision D10, entry 16; `KEY_SRC`, entry 6). -/
def Obligations.KeySkipsFollowThePoll : Prop :=
  ∀ (x : Reg) (s : State),
    let k := if s.params.keySrc = .reg then s.getV x else x.zeroExtend 8
    (k.toNat ≤ 0xF →
      (∃ t, exec (.skpVx x) s = .next t ∧
        t.pc = (if s.input.keys.getLsbD k.toNat = true then s.pc + 4 else s.pc + 2) ∧
        ChangesOnly noReg [] noByte s t) ∧
      (∃ t, exec (.sknpVx x) s = .next t ∧
        t.pc = (if s.input.keys.getLsbD k.toNat = true then s.pc + 2 else s.pc + 4) ∧
        ChangesOnly noReg [] noByte s t)) ∧
    (0xF < k.toNat →
      exec (.skpVx x) s = .next { s with core := .failed (.boundsFailure .keyRange s.pc k.toNat) } ∧
      exec (.sknpVx x) s = .next { s with core := .failed (.boundsFailure .keyRange s.pc k.toNat) })

/-- LD Vx, DT reads the delay timer; LD DT, Vx and LD ST, Vx write one timer each (R131, R133, R134). -/
def Obligations.TimerMovesCopyOneByte : Prop :=
  ∀ (x : Reg) (s : State),
    (∃ t, exec (.ldVxDt x) s = .next t ∧ t.getV x = s.dt ∧ t.pc = s.pc + 2 ∧ ChangesOnly (· = x) [] noByte s t) ∧
    (∃ t, exec (.ldDtVx x) s = .next t ∧ t.dt = s.getV x ∧ t.pc = s.pc + 2 ∧
      ChangesOnly noReg [.delayTimer] noByte s t) ∧
    (∃ t, exec (.ldStVx x) s = .next t ∧ t.st = s.getV x ∧ t.pc = s.pc + 2 ∧
      ChangesOnly noReg [.soundTimer] noByte s t)

/-- LD Vx, K with the provider's key at hand writes it zero-extended and advances; with none it only suspends, no other
write having happened; suspended, it asks again, and the answer completes it in the same way (R132). -/
def Obligations.KeyWaitWritesTheKeyOrSuspends : Prop :=
  ∀ (x : Reg) (s : State),
    (s.core = .ready → ∀ k : Key, s.input.key = some k → ∃ t, exec (.ldVxK x) s = .next t ∧
      (t.getV x).toNat = k.toNat ∧ t.pc = s.pc + 2 ∧ t.core = .ready ∧ ChangesOnly (· = x) [] noByte s t) ∧
    (s.core = .ready → s.input.key = none → exec (.ldVxK x) s = .next { s with core := .waitKey x }) ∧
    (s.core = .waitKey x → ∀ (input : StepInput) (k : Key), input.key = some k → ∃ t, coreMove s input = .next t ∧
      (t.getV x).toNat = k.toNat ∧ t.pc = s.pc + 2 ∧ t.core = .ready ∧
      ChangesOnly (· = x) [.core] noByte { s with input := input, started := true } t)

/-! ## The end of a run (40_sequencer.md) -/

/-- In an ended state a `STEP` changes nothing: the failure stands, or the jump to itself leaves `PC` where it is
(40_sequencer.md section 2, the spec's decision D29, entry 31). -/
def Obligations.EndedStatesAreFixedPoints : Prop :=
  ∀ (s : State) (input : StepInput), s.ended → ∃ t, coreMove s input = .next t ∧
    t.v = s.v ∧ t.pc = s.pc ∧ t.core = s.core ∧ ChangesOnly noReg [] noByte { s with input := t.input, started := t.started } t

/-! ## The host between steps (40_sequencer.md) -/

/-- The host may tick, take snapshots and ask for `DIRTY?` and `DIMENSIONS` in any number and order between steps and during
the key wait (40_sequencer.md section 2, the spec's decision D13, entry 19): every agenda is followed move by move; where it
is empty the next move is the host's free choice, which is made wherever the rules admit it, in every state of `CORE`; and
no admitted move stops the machine. That a choice the rules do not admit gives way to the core's move is the model's,
entry 1. -/
def Obligations.HostMovesInterleaveFreely : Prop :=
  (∀ (s : State) (m : HostMove) (rest : List HostMove), s.agenda = m :: rest →
    step s = hostMove m { s with agenda := rest }) ∧
  (∀ s : State, s.agenda = [] →
    step s = hostMove (s.settle (Config.hostMove s.draws) (Config.input s.draws)) { s with draws := s.draws + 1 }) ∧
  (∀ (s : State) (choice : HostMove) (input : StepInput),
    (s.admits choice = true → s.settle choice input = choice) ∧
    (s.admits choice = false → s.settle choice input = .proceed input)) ∧
  (∀ (s : State) (m : HostMove), s.admits m = true → ∃ t, hostMove m s = .next t) ∧
  ∀ (s : State) (m : HostMove),
    (m = .tick ∨ m = .snapshot ∨ m = .isDirty ∨ m = .dimensions) → s.admits m = true ∧
      ∃ t, hostMove m s = .next t ∧
        t.dt.toNat = (if m = .tick then s.dt.toNat - 1 else s.dt.toNat) ∧
        t.st.toNat = (if m = .tick then s.st.toNat - 1 else s.st.toNat) ∧
        t.fb = (if m = .snapshot then { s.fb with dirty := false } else s.fb) ∧ t.pc = s.pc ∧
        ChangesOnly noReg [.delayTimer, .soundTimer, .display] noByte s t
end

