-- ==== Sys2Proof/Laws/State.lean ====
section
/-! SUPPORT. What each update of the state does to each field: one lemma per field per update. -/

namespace Sys2Proof.Machine

variable (s : State)

/-! ## setV -/

@[simp] theorem State.setV_pc (r : Reg) (b : Byte) : (s.setV r b).pc = s.pc := rfl
@[simp] theorem State.setV_index (r : Reg) (b : Byte) : (s.setV r b).index = s.index := rfl
@[simp] theorem State.setV_dt (r : Reg) (b : Byte) : (s.setV r b).dt = s.dt := rfl
@[simp] theorem State.setV_st (r : Reg) (b : Byte) : (s.setV r b).st = s.st := rfl
@[simp] theorem State.setV_sd (r : Reg) (b : Byte) : (s.setV r b).sd = s.sd := rfl
@[simp] theorem State.setV_stk (r : Reg) (b : Byte) : (s.setV r b).stk = s.stk := rfl
@[simp] theorem State.setV_mem (r : Reg) (b : Byte) : (s.setV r b).mem = s.mem := rfl
@[simp] theorem State.setV_fb (r : Reg) (b : Byte) : (s.setV r b).fb = s.fb := rfl
@[simp] theorem State.setV_core (r : Reg) (b : Byte) : (s.setV r b).core = s.core := rfl
@[simp] theorem State.setV_params (r : Reg) (b : Byte) : (s.setV r b).params = s.params := rfl
@[simp] theorem State.setV_started (r : Reg) (b : Byte) : (s.setV r b).started = s.started := rfl
@[simp] theorem State.setV_input (r : Reg) (b : Byte) : (s.setV r b).input = s.input := rfl
@[simp] theorem State.setV_draws (r : Reg) (b : Byte) : (s.setV r b).draws = s.draws := rfl
@[simp] theorem State.setV_agenda (r : Reg) (b : Byte) : (s.setV r b).agenda = s.agenda := rfl
@[simp] theorem State.setV_readByte (r : Reg) (b : Byte) (q : Nat) : (s.setV r b).readByte q = s.readByte q := rfl

/-! ## setVF -/

@[simp] theorem State.setVF_pc (f : Bool) : (s.setVF f).pc = s.pc := rfl
@[simp] theorem State.setVF_index (f : Bool) : (s.setVF f).index = s.index := rfl
@[simp] theorem State.setVF_dt (f : Bool) : (s.setVF f).dt = s.dt := rfl
@[simp] theorem State.setVF_st (f : Bool) : (s.setVF f).st = s.st := rfl
@[simp] theorem State.setVF_sd (f : Bool) : (s.setVF f).sd = s.sd := rfl
@[simp] theorem State.setVF_stk (f : Bool) : (s.setVF f).stk = s.stk := rfl
@[simp] theorem State.setVF_mem (f : Bool) : (s.setVF f).mem = s.mem := rfl
@[simp] theorem State.setVF_fb (f : Bool) : (s.setVF f).fb = s.fb := rfl
@[simp] theorem State.setVF_core (f : Bool) : (s.setVF f).core = s.core := rfl
@[simp] theorem State.setVF_params (f : Bool) : (s.setVF f).params = s.params := rfl
@[simp] theorem State.setVF_started (f : Bool) : (s.setVF f).started = s.started := rfl
@[simp] theorem State.setVF_input (f : Bool) : (s.setVF f).input = s.input := rfl
@[simp] theorem State.setVF_draws (f : Bool) : (s.setVF f).draws = s.draws := rfl
@[simp] theorem State.setVF_agenda (f : Bool) : (s.setVF f).agenda = s.agenda := rfl
@[simp] theorem State.setVF_readByte (f : Bool) (q : Nat) : (s.setVF f).readByte q = s.readByte q := rfl

/-! ## setPc -/

@[simp] theorem State.setPc_v (t : Word) : (s.setPc t).v = s.v := rfl
@[simp] theorem State.setPc_pc (t : Word) : (s.setPc t).pc = t := rfl
@[simp] theorem State.setPc_index (t : Word) : (s.setPc t).index = s.index := rfl
@[simp] theorem State.setPc_dt (t : Word) : (s.setPc t).dt = s.dt := rfl
@[simp] theorem State.setPc_st (t : Word) : (s.setPc t).st = s.st := rfl
@[simp] theorem State.setPc_sd (t : Word) : (s.setPc t).sd = s.sd := rfl
@[simp] theorem State.setPc_stk (t : Word) : (s.setPc t).stk = s.stk := rfl
@[simp] theorem State.setPc_mem (t : Word) : (s.setPc t).mem = s.mem := rfl
@[simp] theorem State.setPc_fb (t : Word) : (s.setPc t).fb = s.fb := rfl
@[simp] theorem State.setPc_core (t : Word) : (s.setPc t).core = s.core := rfl
@[simp] theorem State.setPc_params (t : Word) : (s.setPc t).params = s.params := rfl
@[simp] theorem State.setPc_started (t : Word) : (s.setPc t).started = s.started := rfl
@[simp] theorem State.setPc_input (t : Word) : (s.setPc t).input = s.input := rfl
@[simp] theorem State.setPc_draws (t : Word) : (s.setPc t).draws = s.draws := rfl
@[simp] theorem State.setPc_agenda (t : Word) : (s.setPc t).agenda = s.agenda := rfl
@[simp] theorem State.setPc_getV (t : Word) (q : Reg) : (s.setPc t).getV q = s.getV q := rfl
@[simp] theorem State.setPc_readByte (t : Word) (q : Nat) : (s.setPc t).readByte q = s.readByte q := rfl

/-! ## advance -/

@[simp] theorem State.advance_v : (s.advance).v = s.v := rfl
@[simp] theorem State.advance_pc : (s.advance).pc = s.pc + 2 := rfl
@[simp] theorem State.advance_index : (s.advance).index = s.index := rfl
@[simp] theorem State.advance_dt : (s.advance).dt = s.dt := rfl
@[simp] theorem State.advance_st : (s.advance).st = s.st := rfl
@[simp] theorem State.advance_sd : (s.advance).sd = s.sd := rfl
@[simp] theorem State.advance_stk : (s.advance).stk = s.stk := rfl
@[simp] theorem State.advance_mem : (s.advance).mem = s.mem := rfl
@[simp] theorem State.advance_fb : (s.advance).fb = s.fb := rfl
@[simp] theorem State.advance_core : (s.advance).core = s.core := rfl
@[simp] theorem State.advance_params : (s.advance).params = s.params := rfl
@[simp] theorem State.advance_started : (s.advance).started = s.started := rfl
@[simp] theorem State.advance_input : (s.advance).input = s.input := rfl
@[simp] theorem State.advance_draws : (s.advance).draws = s.draws := rfl
@[simp] theorem State.advance_agenda : (s.advance).agenda = s.agenda := rfl
@[simp] theorem State.advance_getV (q : Reg) : (s.advance).getV q = s.getV q := rfl
@[simp] theorem State.advance_readByte (q : Nat) : (s.advance).readByte q = s.readByte q := rfl

/-! ## skipIf -/

@[simp] theorem State.skipIf_v (c : Bool) : (s.skipIf c).v = s.v := rfl
@[simp] theorem State.skipIf_pc (c : Bool) : (s.skipIf c).pc = if c then s.pc + 4 else s.pc + 2 := rfl
@[simp] theorem State.skipIf_index (c : Bool) : (s.skipIf c).index = s.index := rfl
@[simp] theorem State.skipIf_dt (c : Bool) : (s.skipIf c).dt = s.dt := rfl
@[simp] theorem State.skipIf_st (c : Bool) : (s.skipIf c).st = s.st := rfl
@[simp] theorem State.skipIf_sd (c : Bool) : (s.skipIf c).sd = s.sd := rfl
@[simp] theorem State.skipIf_stk (c : Bool) : (s.skipIf c).stk = s.stk := rfl
@[simp] theorem State.skipIf_mem (c : Bool) : (s.skipIf c).mem = s.mem := rfl
@[simp] theorem State.skipIf_fb (c : Bool) : (s.skipIf c).fb = s.fb := rfl
@[simp] theorem State.skipIf_core (c : Bool) : (s.skipIf c).core = s.core := rfl
@[simp] theorem State.skipIf_params (c : Bool) : (s.skipIf c).params = s.params := rfl
@[simp] theorem State.skipIf_started (c : Bool) : (s.skipIf c).started = s.started := rfl
@[simp] theorem State.skipIf_input (c : Bool) : (s.skipIf c).input = s.input := rfl
@[simp] theorem State.skipIf_draws (c : Bool) : (s.skipIf c).draws = s.draws := rfl
@[simp] theorem State.skipIf_agenda (c : Bool) : (s.skipIf c).agenda = s.agenda := rfl
@[simp] theorem State.skipIf_getV (c : Bool) (q : Reg) : (s.skipIf c).getV q = s.getV q := rfl
@[simp] theorem State.skipIf_readByte (c : Bool) (q : Nat) : (s.skipIf c).readByte q = s.readByte q := rfl

/-! ## setIndex -/

@[simp] theorem State.setIndex_v (t : Word) : (s.setIndex t).v = s.v := rfl
@[simp] theorem State.setIndex_pc (t : Word) : (s.setIndex t).pc = s.pc := rfl
@[simp] theorem State.setIndex_index (t : Word) : (s.setIndex t).index = t := rfl
@[simp] theorem State.setIndex_dt (t : Word) : (s.setIndex t).dt = s.dt := rfl
@[simp] theorem State.setIndex_st (t : Word) : (s.setIndex t).st = s.st := rfl
@[simp] theorem State.setIndex_sd (t : Word) : (s.setIndex t).sd = s.sd := rfl
@[simp] theorem State.setIndex_stk (t : Word) : (s.setIndex t).stk = s.stk := rfl
@[simp] theorem State.setIndex_mem (t : Word) : (s.setIndex t).mem = s.mem := rfl
@[simp] theorem State.setIndex_fb (t : Word) : (s.setIndex t).fb = s.fb := rfl
@[simp] theorem State.setIndex_core (t : Word) : (s.setIndex t).core = s.core := rfl
@[simp] theorem State.setIndex_params (t : Word) : (s.setIndex t).params = s.params := rfl
@[simp] theorem State.setIndex_started (t : Word) : (s.setIndex t).started = s.started := rfl
@[simp] theorem State.setIndex_input (t : Word) : (s.setIndex t).input = s.input := rfl
@[simp] theorem State.setIndex_draws (t : Word) : (s.setIndex t).draws = s.draws := rfl
@[simp] theorem State.setIndex_agenda (t : Word) : (s.setIndex t).agenda = s.agenda := rfl
@[simp] theorem State.setIndex_getV (t : Word) (q : Reg) : (s.setIndex t).getV q = s.getV q := rfl
@[simp] theorem State.setIndex_readByte (t : Word) (q : Nat) : (s.setIndex t).readByte q = s.readByte q := rfl

/-! ## setDt -/

@[simp] theorem State.setDt_v (b : Byte) : (s.setDt b).v = s.v := rfl
@[simp] theorem State.setDt_pc (b : Byte) : (s.setDt b).pc = s.pc := rfl
@[simp] theorem State.setDt_index (b : Byte) : (s.setDt b).index = s.index := rfl
@[simp] theorem State.setDt_dt (b : Byte) : (s.setDt b).dt = b := rfl
@[simp] theorem State.setDt_st (b : Byte) : (s.setDt b).st = s.st := rfl
@[simp] theorem State.setDt_sd (b : Byte) : (s.setDt b).sd = s.sd := rfl
@[simp] theorem State.setDt_stk (b : Byte) : (s.setDt b).stk = s.stk := rfl
@[simp] theorem State.setDt_mem (b : Byte) : (s.setDt b).mem = s.mem := rfl
@[simp] theorem State.setDt_fb (b : Byte) : (s.setDt b).fb = s.fb := rfl
@[simp] theorem State.setDt_core (b : Byte) : (s.setDt b).core = s.core := rfl
@[simp] theorem State.setDt_params (b : Byte) : (s.setDt b).params = s.params := rfl
@[simp] theorem State.setDt_started (b : Byte) : (s.setDt b).started = s.started := rfl
@[simp] theorem State.setDt_input (b : Byte) : (s.setDt b).input = s.input := rfl
@[simp] theorem State.setDt_draws (b : Byte) : (s.setDt b).draws = s.draws := rfl
@[simp] theorem State.setDt_agenda (b : Byte) : (s.setDt b).agenda = s.agenda := rfl
@[simp] theorem State.setDt_getV (b : Byte) (q : Reg) : (s.setDt b).getV q = s.getV q := rfl
@[simp] theorem State.setDt_readByte (b : Byte) (q : Nat) : (s.setDt b).readByte q = s.readByte q := rfl

/-! ## setSt -/

@[simp] theorem State.setSt_v (b : Byte) : (s.setSt b).v = s.v := rfl
@[simp] theorem State.setSt_pc (b : Byte) : (s.setSt b).pc = s.pc := rfl
@[simp] theorem State.setSt_index (b : Byte) : (s.setSt b).index = s.index := rfl
@[simp] theorem State.setSt_dt (b : Byte) : (s.setSt b).dt = s.dt := rfl
@[simp] theorem State.setSt_st (b : Byte) : (s.setSt b).st = b := rfl
@[simp] theorem State.setSt_sd (b : Byte) : (s.setSt b).sd = s.sd := rfl
@[simp] theorem State.setSt_stk (b : Byte) : (s.setSt b).stk = s.stk := rfl
@[simp] theorem State.setSt_mem (b : Byte) : (s.setSt b).mem = s.mem := rfl
@[simp] theorem State.setSt_fb (b : Byte) : (s.setSt b).fb = s.fb := rfl
@[simp] theorem State.setSt_core (b : Byte) : (s.setSt b).core = s.core := rfl
@[simp] theorem State.setSt_params (b : Byte) : (s.setSt b).params = s.params := rfl
@[simp] theorem State.setSt_started (b : Byte) : (s.setSt b).started = s.started := rfl
@[simp] theorem State.setSt_input (b : Byte) : (s.setSt b).input = s.input := rfl
@[simp] theorem State.setSt_draws (b : Byte) : (s.setSt b).draws = s.draws := rfl
@[simp] theorem State.setSt_agenda (b : Byte) : (s.setSt b).agenda = s.agenda := rfl
@[simp] theorem State.setSt_getV (b : Byte) (q : Reg) : (s.setSt b).getV q = s.getV q := rfl
@[simp] theorem State.setSt_readByte (b : Byte) (q : Nat) : (s.setSt b).readByte q = s.readByte q := rfl

/-! ## writeByte -/

@[simp] theorem State.writeByte_v (a : Nat) (b : Byte) : (s.writeByte a b).v = s.v := rfl
@[simp] theorem State.writeByte_pc (a : Nat) (b : Byte) : (s.writeByte a b).pc = s.pc := rfl
@[simp] theorem State.writeByte_index (a : Nat) (b : Byte) : (s.writeByte a b).index = s.index := rfl
@[simp] theorem State.writeByte_dt (a : Nat) (b : Byte) : (s.writeByte a b).dt = s.dt := rfl
@[simp] theorem State.writeByte_st (a : Nat) (b : Byte) : (s.writeByte a b).st = s.st := rfl
@[simp] theorem State.writeByte_sd (a : Nat) (b : Byte) : (s.writeByte a b).sd = s.sd := rfl
@[simp] theorem State.writeByte_stk (a : Nat) (b : Byte) : (s.writeByte a b).stk = s.stk := rfl
@[simp] theorem State.writeByte_mem (a : Nat) (b : Byte) : (s.writeByte a b).mem = Memory.write s.params.font s.mem a b := rfl
@[simp] theorem State.writeByte_fb (a : Nat) (b : Byte) : (s.writeByte a b).fb = s.fb := rfl
@[simp] theorem State.writeByte_core (a : Nat) (b : Byte) : (s.writeByte a b).core = s.core := rfl
@[simp] theorem State.writeByte_params (a : Nat) (b : Byte) : (s.writeByte a b).params = s.params := rfl
@[simp] theorem State.writeByte_started (a : Nat) (b : Byte) : (s.writeByte a b).started = s.started := rfl
@[simp] theorem State.writeByte_input (a : Nat) (b : Byte) : (s.writeByte a b).input = s.input := rfl
@[simp] theorem State.writeByte_draws (a : Nat) (b : Byte) : (s.writeByte a b).draws = s.draws := rfl
@[simp] theorem State.writeByte_agenda (a : Nat) (b : Byte) : (s.writeByte a b).agenda = s.agenda := rfl
@[simp] theorem State.writeByte_getV (a : Nat) (b : Byte) (q : Reg) : (s.writeByte a b).getV q = s.getV q := rfl

/-! ## loadRegs -/

@[simp] theorem State.loadRegs_pc (x : Reg) (a : Nat) : (s.loadRegs x a).pc = s.pc := rfl
@[simp] theorem State.loadRegs_index (x : Reg) (a : Nat) : (s.loadRegs x a).index = s.index := rfl
@[simp] theorem State.loadRegs_dt (x : Reg) (a : Nat) : (s.loadRegs x a).dt = s.dt := rfl
@[simp] theorem State.loadRegs_st (x : Reg) (a : Nat) : (s.loadRegs x a).st = s.st := rfl
@[simp] theorem State.loadRegs_sd (x : Reg) (a : Nat) : (s.loadRegs x a).sd = s.sd := rfl
@[simp] theorem State.loadRegs_stk (x : Reg) (a : Nat) : (s.loadRegs x a).stk = s.stk := rfl
@[simp] theorem State.loadRegs_mem (x : Reg) (a : Nat) : (s.loadRegs x a).mem = s.mem := rfl
@[simp] theorem State.loadRegs_fb (x : Reg) (a : Nat) : (s.loadRegs x a).fb = s.fb := rfl
@[simp] theorem State.loadRegs_core (x : Reg) (a : Nat) : (s.loadRegs x a).core = s.core := rfl
@[simp] theorem State.loadRegs_params (x : Reg) (a : Nat) : (s.loadRegs x a).params = s.params := rfl
@[simp] theorem State.loadRegs_started (x : Reg) (a : Nat) : (s.loadRegs x a).started = s.started := rfl
@[simp] theorem State.loadRegs_input (x : Reg) (a : Nat) : (s.loadRegs x a).input = s.input := rfl
@[simp] theorem State.loadRegs_draws (x : Reg) (a : Nat) : (s.loadRegs x a).draws = s.draws := rfl
@[simp] theorem State.loadRegs_agenda (x : Reg) (a : Nat) : (s.loadRegs x a).agenda = s.agenda := rfl
@[simp] theorem State.loadRegs_readByte (x : Reg) (a : Nat) (q : Nat) : (s.loadRegs x a).readByte q = s.readByte q := rfl

/-! ## raise -/

@[simp] theorem State.raise_v (r : Report) : (s.raise r).v = s.v := rfl
@[simp] theorem State.raise_pc (r : Report) : (s.raise r).pc = s.pc := rfl
@[simp] theorem State.raise_index (r : Report) : (s.raise r).index = s.index := rfl
@[simp] theorem State.raise_dt (r : Report) : (s.raise r).dt = s.dt := rfl
@[simp] theorem State.raise_st (r : Report) : (s.raise r).st = s.st := rfl
@[simp] theorem State.raise_sd (r : Report) : (s.raise r).sd = s.sd := rfl
@[simp] theorem State.raise_stk (r : Report) : (s.raise r).stk = s.stk := rfl
@[simp] theorem State.raise_mem (r : Report) : (s.raise r).mem = s.mem := rfl
@[simp] theorem State.raise_fb (r : Report) : (s.raise r).fb = s.fb := rfl
@[simp] theorem State.raise_core (r : Report) : (s.raise r).core = .failed r := rfl
@[simp] theorem State.raise_params (r : Report) : (s.raise r).params = s.params := rfl
@[simp] theorem State.raise_started (r : Report) : (s.raise r).started = s.started := rfl
@[simp] theorem State.raise_input (r : Report) : (s.raise r).input = s.input := rfl
@[simp] theorem State.raise_draws (r : Report) : (s.raise r).draws = s.draws := rfl
@[simp] theorem State.raise_agenda (r : Report) : (s.raise r).agenda = s.agenda := rfl
@[simp] theorem State.raise_getV (r : Report) (q : Reg) : (s.raise r).getV q = s.getV q := rfl
@[simp] theorem State.raise_readByte (r : Report) (q : Nat) : (s.raise r).readByte q = s.readByte q := rfl

/-! ## latch -/

@[simp] theorem State.latch_v (i : StepInput) : (s.latch i).v = s.v := rfl
@[simp] theorem State.latch_pc (i : StepInput) : (s.latch i).pc = s.pc := rfl
@[simp] theorem State.latch_index (i : StepInput) : (s.latch i).index = s.index := rfl
@[simp] theorem State.latch_dt (i : StepInput) : (s.latch i).dt = s.dt := rfl
@[simp] theorem State.latch_st (i : StepInput) : (s.latch i).st = s.st := rfl
@[simp] theorem State.latch_sd (i : StepInput) : (s.latch i).sd = s.sd := rfl
@[simp] theorem State.latch_stk (i : StepInput) : (s.latch i).stk = s.stk := rfl
@[simp] theorem State.latch_mem (i : StepInput) : (s.latch i).mem = s.mem := rfl
@[simp] theorem State.latch_fb (i : StepInput) : (s.latch i).fb = s.fb := rfl
@[simp] theorem State.latch_core (i : StepInput) : (s.latch i).core = s.core := rfl
@[simp] theorem State.latch_params (i : StepInput) : (s.latch i).params = s.params := rfl
@[simp] theorem State.latch_started (i : StepInput) : (s.latch i).started = true := rfl
@[simp] theorem State.latch_input (i : StepInput) : (s.latch i).input = i := rfl
@[simp] theorem State.latch_draws (i : StepInput) : (s.latch i).draws = s.draws := rfl
@[simp] theorem State.latch_agenda (i : StepInput) : (s.latch i).agenda = s.agenda := rfl
@[simp] theorem State.latch_getV (i : StepInput) (q : Reg) : (s.latch i).getV q = s.getV q := rfl
@[simp] theorem State.latch_readByte (i : StepInput) (q : Nat) : (s.latch i).readByte q = s.readByte q := rfl

/-! ## tick -/

@[simp] theorem State.tick_v : (s.tick).v = s.v := rfl
@[simp] theorem State.tick_pc : (s.tick).pc = s.pc := rfl
@[simp] theorem State.tick_index : (s.tick).index = s.index := rfl
@[simp] theorem State.tick_dt : (s.tick).dt = countDown s.dt := rfl
@[simp] theorem State.tick_st : (s.tick).st = countDown s.st := rfl
@[simp] theorem State.tick_sd : (s.tick).sd = s.sd := rfl
@[simp] theorem State.tick_stk : (s.tick).stk = s.stk := rfl
@[simp] theorem State.tick_mem : (s.tick).mem = s.mem := rfl
@[simp] theorem State.tick_fb : (s.tick).fb = s.fb := rfl
@[simp] theorem State.tick_core : (s.tick).core = s.core := rfl
@[simp] theorem State.tick_params : (s.tick).params = s.params := rfl
@[simp] theorem State.tick_started : (s.tick).started = s.started := rfl
@[simp] theorem State.tick_input : (s.tick).input = s.input := rfl
@[simp] theorem State.tick_draws : (s.tick).draws = s.draws := rfl
@[simp] theorem State.tick_agenda : (s.tick).agenda = s.agenda := rfl
@[simp] theorem State.tick_getV (q : Reg) : (s.tick).getV q = s.getV q := rfl
@[simp] theorem State.tick_readByte (q : Nat) : (s.tick).readByte q = s.readByte q := rfl

/-! ## Registers -/

/-- Reading a register after a write: the written one gives the new byte, every other its own (10_state.md R15). -/
theorem State.getV_setV (r q : Reg) (b : Byte) : (s.setV r b).getV q = if q = r then b else s.getV q := by
  unfold State.getV State.setV
  by_cases h : q = r
  · simp [h]
  · have : r.toNat ≠ q.toNat := fun e => h (BitVec.eq_of_toNat_eq e.symm)
    simp [h, this]

@[simp] theorem State.getV_setV_self (r : Reg) (b : Byte) : (s.setV r b).getV r = b := by
  simp [State.getV_setV]

theorem State.getV_setV_ne {r q : Reg} (h : q ≠ r) (b : Byte) : (s.setV r b).getV q = s.getV q := by
  simp [State.getV_setV, h]

/-- Reading a register after the flag is written (10_state.md R16). -/
theorem State.getV_setVF (f : Bool) (q : Reg) :
    (s.setVF f).getV q = if q = regF then (if f then 1 else 0) else s.getV q :=
  s.getV_setV regF q _

@[simp] theorem State.getV_setVF_self (f : Bool) : (s.setVF f).getV regF = if f then 1 else 0 :=
  s.getV_setV_self regF _

theorem State.getV_setVF_ne {q : Reg} (h : q ≠ regF) (f : Bool) : (s.setVF f).getV q = s.getV q :=
  s.getV_setV_ne h _

/-- `V[0]`..`V[x]` come from memory, the rest stay (43_index_memory.md R121). -/
theorem State.getV_loadRegs (x q : Reg) (a : Nat) :
    (s.loadRegs x a).getV q = if q.toNat ≤ x.toNat then s.readByte (a + q.toNat) else s.getV q := by
  simp [State.getV, State.loadRegs]

/-- The registers `Fx55` stores, by number (43_index_memory.md R120). -/
@[simp] theorem State.regsUpTo_length (x : Reg) : (s.regsUpTo x).length = x.toNat + 1 := by
  have := x.isLt
  simp [State.regsUpTo]
  omega

theorem State.regsUpTo_getElem (x : Reg) (k : Nat) (h : k < (s.regsUpTo x).length) :
    (s.regsUpTo x)[k] = s.getV (BitVec.ofNat 4 k) := by
  have hx := x.isLt
  have hk : k < 16 := by simp at h; omega
  simp [State.regsUpTo, State.getV, Nat.mod_eq_of_lt hk]

end Sys2Proof.Machine
end

