-- ==== Sys2Proof/Laws/Display.lean ====
section
/-! SUPPORT. What the framebuffer's operations do: each pixel after a row and after a sprite, the collision, the dirty
flag, and that every operation keeps the canonical form. -/

namespace Sys2Proof.Machine

/-! ## One pixel -/

@[simp] theorem Framebuffer.isLit_iff (fb : Framebuffer) (p : Pixel) : fb.isLit p = true ↔ p ∈ fb.lit := by
  simp [Framebuffer.isLit]

theorem Pixel.mem_insert {p q : Pixel} {ps : List Pixel} : q ∈ p.insert ps ↔ q = p ∨ q ∈ ps := by
  induction ps with
  | nil => simp [Pixel.insert]
  | cons r rest ih =>
    unfold Pixel.insert
    split
    · simp
    · simp only [List.mem_cons, ih]; tauto

/-- A pixel after an exclusive OR: the pixel itself takes the bit, every other is as before (44_display.md R125). -/
theorem Framebuffer.isLit_xorPixel (fb : Framebuffer) (p q : Pixel) (bit : Bool) :
    (fb.xorPixel p bit).isLit q = (fb.isLit q ^^ (bit && decide (q = p))) := by
  unfold Framebuffer.xorPixel
  cases bit with
  | false => simp
  | true =>
    rw [Bool.eq_iff_iff]
    by_cases hq : q = p
    · subst hq
      by_cases hl : q ∈ fb.lit
      · simp [hl, Framebuffer.isLit]
      · simp [hl, Framebuffer.isLit, Pixel.mem_insert]
    · by_cases hl : p ∈ fb.lit
      · simp [hl, Framebuffer.isLit, hq]
      · simp [hl, Framebuffer.isLit, Pixel.mem_insert, hq]

@[simp] theorem Framebuffer.dirty_xorPixel (fb : Framebuffer) (p : Pixel) (bit : Bool) :
    (fb.xorPixel p bit).dirty = fb.dirty := by
  unfold Framebuffer.xorPixel; split <;> rfl

/-! ## The canonical form -/

theorem Pixel.before_trans {p q r : Pixel} (h1 : p.before q = true) (h2 : q.before r = true) : p.before r = true := by
  simp only [Pixel.before, Bool.or_eq_true, Bool.and_eq_true, decide_eq_true_eq, beq_iff_eq] at *
  omega

theorem Pixel.before_of_not {p q : Pixel} (h : ¬ p.before q = true) (hne : q ≠ p) : q.before p = true := by
  simp only [Pixel.before, Bool.or_eq_true, Bool.and_eq_true, decide_eq_true_eq, beq_iff_eq] at *
  have : ¬ (q.col = p.col ∧ q.row = p.row) := fun e => hne (by cases p; cases q; simp_all)
  omega

theorem Pixel.ordered_cons {p : Pixel} {ps : List Pixel} :
    Pixel.ordered (p :: ps) = true ↔ (∀ q ∈ ps, p.before q = true) ∧ Pixel.ordered ps = true := by
  induction ps generalizing p with
  | nil => simp [Pixel.ordered]
  | cons q rest ih =>
    constructor
    · intro h
      simp only [Pixel.ordered, Bool.and_eq_true] at h
      refine ⟨fun r hr => ?_, h.2⟩
      rcases List.mem_cons.mp hr with rfl | hr
      · exact h.1
      · exact Pixel.before_trans h.1 ((ih.mp h.2).1 r hr)
    · rintro ⟨h, ho⟩
      simp [Pixel.ordered, h q (by simp), ho]

theorem Pixel.ordered_filter (f : Pixel → Bool) {ps : List Pixel} (h : Pixel.ordered ps = true) :
    Pixel.ordered (ps.filter f) = true := by
  induction ps with
  | nil => rfl
  | cons p rest ih =>
    obtain ⟨hp, ho⟩ := Pixel.ordered_cons.mp h
    by_cases hf : f p
    · simp only [List.filter_cons, hf, if_true]
      exact Pixel.ordered_cons.mpr ⟨fun q hq => hp q (List.mem_filter.mp hq).1, ih ho⟩
    · simpa [List.filter_cons, hf] using ih ho

theorem Pixel.ordered_insert {p : Pixel} {ps : List Pixel} (h : Pixel.ordered ps = true) (hp : p ∉ ps) :
    Pixel.ordered (p.insert ps) = true := by
  induction ps with
  | nil => rfl
  | cons r rest ih =>
    obtain ⟨hr, ho⟩ := Pixel.ordered_cons.mp h
    unfold Pixel.insert
    split
    · next hb =>
      exact Pixel.ordered_cons.mpr ⟨fun q hq => by
        rcases List.mem_cons.mp hq with rfl | hq
        · exact hb
        · exact Pixel.before_trans hb (hr q hq), h⟩
    · next hb =>
      refine Pixel.ordered_cons.mpr ⟨fun q hq => ?_, ih ho fun hm => hp (by simp [hm])⟩
      rcases Pixel.mem_insert.mp hq with rfl | hq
      · exact Pixel.before_of_not hb fun e => hp (by simp [e])
      · exact hr q hq

/-- An exclusive OR of a pixel of the grid keeps the canonical form. -/
theorem Framebuffer.wf_xorPixel (g : Geom) {fb : Framebuffer} (p : Pixel) (bit : Bool) (h : fb.wf g = true)
    (hc : p.col < g.width) (hr : p.row < g.height) : (fb.xorPixel p bit).wf g = true := by
  simp only [Framebuffer.wf, Bool.and_eq_true, List.all_eq_true] at h ⊢
  unfold Framebuffer.xorPixel
  cases bit with
  | false => exact h
  | true =>
    by_cases hl : fb.isLit p = true
    · simp only [hl, if_true]
      exact ⟨Pixel.ordered_filter _ h.1, fun q hq => h.2 q (List.mem_filter.mp hq).1⟩
    · simp only [hl, if_true]
      refine ⟨Pixel.ordered_insert h.1 (by simpa using hl), fun q hq => ?_⟩
      rcases Pixel.mem_insert.mp hq with rfl | hq
      · simp [hc, hr]
      · exact h.2 q hq

theorem width_pos (g : Geom) : 0 < g.width := by cases g <;> decide

theorem height_pos (g : Geom) : 0 < g.height := by cases g <;> decide

/-- A row drawn keeps the canonical form. -/
theorem Framebuffer.wf_drawRow (g : Geom) {fb : Framebuffer} (byte : Byte) (cx cy : Nat) (h : fb.wf g = true) :
    (fb.drawRow g byte cx cy).1.wf g = true := by
  have loop : ∀ (is : List Nat) (acc : Framebuffer × Bool), acc.1.wf g = true →
      (is.foldl (Framebuffer.drawBit g byte cx cy) acc).1.wf g = true := by
    intro is
    induction is with
    | nil => exact fun acc h => h
    | cons i rest ih =>
      intro acc hacc
      exact ih _ (Framebuffer.wf_xorPixel g _ _ hacc (Nat.mod_lt _ (width_pos g)) (Nat.mod_lt _ (height_pos g)))
  exact loop (List.range 8) (fb, false) h

/-- A sprite drawn keeps the canonical form. -/
theorem Framebuffer.wf_drawSprite (g : Geom) (fb : Framebuffer) (cx cy : Nat) (bytes : List Byte) (h : fb.wf g = true) :
    (fb.drawSprite g cx cy bytes).1.wf g = true := by
  induction bytes generalizing fb cy with
  | nil => exact h
  | cons b rest ih => exact ih _ _ (Framebuffer.wf_drawRow g b cx cy h)

/-! ## A row and a sprite -/

/-- Whether the row byte, drawn from column `cx`, turns the pixel's column over (44_display.md R125). -/
def rowHits (g : Geom) (byte : Byte) (cx : Nat) (col : Nat) : Bool :=
  (List.range 8).any fun i => rowBit byte i && decide (col = (cx + i) % g.width)

theorem Pixel.drawn_ne (g : Geom) (cx cy : Nat) {i j : Nat} (hi : i < 8) (hj : j < 8) (h : i ≠ j) :
    Pixel.drawn g cx cy i ≠ Pixel.drawn g cx cy j := by
  intro e
  have := congrArg Pixel.col e
  simp only [Pixel.drawn] at this
  cases g <;> simp only [Geom.width] at this <;> omega

/-- The loop of `draw_row` over some of its passes, no two of which fall on one pixel. -/
theorem Framebuffer.drawBit_fold (g : Geom) (byte : Byte) (cx cy : Nat) (is : List Nat) (acc : Framebuffer × Bool)
    (hlt : ∀ i ∈ is, i < 8) (hnd : is.Nodup) :
    (∀ q, (is.foldl (Framebuffer.drawBit g byte cx cy) acc).1.isLit q =
      (acc.1.isLit q ^^ is.any fun i => rowBit byte i && decide (q = Pixel.drawn g cx cy i))) ∧
    (is.foldl (Framebuffer.drawBit g byte cx cy) acc).2 =
      (acc.2 || is.any fun i => rowBit byte i && acc.1.isLit (Pixel.drawn g cx cy i)) ∧
    (is.foldl (Framebuffer.drawBit g byte cx cy) acc).1.dirty = acc.1.dirty := by
  induction is generalizing acc with
  | nil => simp
  | cons i rest ih =>
    obtain ⟨hni, hnd'⟩ := List.nodup_cons.mp hnd
    obtain ⟨h1, h2, h3⟩ := ih (Framebuffer.drawBit g byte cx cy acc i) (fun j hj => hlt j (by simp [hj])) hnd'
    have hne : ∀ j ∈ rest, Pixel.drawn g cx cy j ≠ Pixel.drawn g cx cy i := fun j hj =>
      Pixel.drawn_ne g cx cy (hlt j (by simp [hj])) (hlt i (by simp)) fun e => hni (e ▸ hj)
    refine ⟨fun q => ?_, ?_, ?_⟩
    · rw [List.foldl_cons, h1 q]
      simp only [Framebuffer.drawBit, Framebuffer.isLit_xorPixel, List.any_cons]
      by_cases hq : q = Pixel.drawn g cx cy i
      · have : (rest.any fun j => rowBit byte j && decide (q = Pixel.drawn g cx cy j)) = false := by
          rw [List.any_eq_false]
          intro j hj
          simp [hq, (hne j hj).symm]
        rw [this]
        simp [hq]
      · simp [hq]
    · rw [List.foldl_cons, h2]
      have : (rest.any fun j => rowBit byte j &&
          (Framebuffer.drawBit g byte cx cy acc i).1.isLit (Pixel.drawn g cx cy j)) =
          rest.any fun j => rowBit byte j && acc.1.isLit (Pixel.drawn g cx cy j) := by
        rw [Bool.eq_iff_iff]
        simp only [List.any_eq_true]
        refine exists_congr fun j => and_congr_right fun hj => ?_
        simp only [Framebuffer.drawBit, Framebuffer.isLit_xorPixel, hne j hj, decide_false, Bool.and_false,
          Bool.xor_false]
      rw [this]
      simp [Framebuffer.drawBit, Bool.or_assoc]
    · rw [List.foldl_cons, h3]
      simp [Framebuffer.drawBit]

/-- Every pixel after a row: a pixel of its grid row is turned over where the row byte hits its column
(44_display.md R125). -/
theorem Framebuffer.isLit_drawRow (g : Geom) (fb : Framebuffer) (byte : Byte) (cx cy : Nat) (q : Pixel) :
    (fb.drawRow g byte cx cy).1.isLit q =
      (fb.isLit q ^^ (decide (q.row = cy % g.height) && rowHits g byte cx q.col)) := by
  have h := (Framebuffer.drawBit_fold g byte cx cy (List.range 8) (fb, false)
    (fun i hi => List.mem_range.mp hi) List.nodup_range).1 q
  refine Eq.trans h ?_
  congr 1
  rw [Bool.eq_iff_iff]
  simp only [rowHits, List.any_eq_true, Bool.and_eq_true, decide_eq_true_eq, Pixel.drawn]
  constructor
  · rintro ⟨i, hi, hb, hq⟩
    have hq := of_decide_eq_true hq
    subst hq
    exact ⟨rfl, i, hi, hb, rfl⟩
  · rintro ⟨hr, i, hi, hb, hc⟩
    refine ⟨i, hi, hb, decide_eq_true ?_⟩
    cases q
    simp_all

/-- The collision of a row: some set bit fell on a lit pixel (44_display.md R125). -/
theorem Framebuffer.collided_drawRow (g : Geom) (fb : Framebuffer) (byte : Byte) (cx cy : Nat) :
    (fb.drawRow g byte cx cy).2 =
      (List.range 8).any fun i => rowBit byte i && fb.isLit (Pixel.drawn g cx cy i) := by
  have h := (Framebuffer.drawBit_fold g byte cx cy (List.range 8) (fb, false)
    (fun i hi => List.mem_range.mp hi) List.nodup_range).2.1
  simpa [Framebuffer.drawRow] using h

@[simp] theorem Framebuffer.dirty_drawRow (g : Geom) (fb : Framebuffer) (byte : Byte) (cx cy : Nat) :
    (fb.drawRow g byte cx cy).1.dirty = true := rfl

/-- A sprite of at least one row leaves the framebuffer dirty (10_state.md R37); none leaves it as it was. -/
theorem Framebuffer.dirty_drawSprite (g : Geom) (fb : Framebuffer) (cx cy : Nat) (bytes : List Byte) :
    (fb.drawSprite g cx cy bytes).1.dirty = (fb.dirty || !bytes.isEmpty) := by
  induction bytes generalizing fb cy with
  | nil => simp [Framebuffer.drawSprite]
  | cons b rest ih => simp [Framebuffer.drawSprite, ih]

/-- Whether a sprite, its first row at grid row `cy`, turns the pixel over: once for each row that hits it
(44_display.md R127). -/
def spriteHits (g : Geom) (cx cy : Nat) : List Byte → Pixel → Bool
  | [], _ => false
  | b :: rest, q =>
    (decide (q.row = cy % g.height) && rowHits g b cx q.col) ^^ spriteHits g cx (cy + 1) rest q

/-- Every pixel after a sprite (44_display.md R127). -/
theorem Framebuffer.isLit_drawSprite (g : Geom) (fb : Framebuffer) (cx cy : Nat) (bytes : List Byte) (q : Pixel) :
    (fb.drawSprite g cx cy bytes).1.isLit q = (fb.isLit q ^^ spriteHits g cx cy bytes q) := by
  induction bytes generalizing fb cy with
  | nil => simp [Framebuffer.drawSprite, spriteHits]
  | cons b rest ih =>
    rw [Framebuffer.drawSprite, ih, Framebuffer.isLit_drawRow, spriteHits, Bool.xor_assoc]

end Sys2Proof.Machine
end

