-- ==== Sys2Proof/Laws/Encoding.lean ====
section
/-! SUPPORT. The fields of an assembled word, and a word from its fields (30_encoding.md R67, R68). -/

namespace Sys2Proof

/-! ## Slices of a concatenation -/

theorem slice_low {m k : Nat} (a : BitVec m) (b : BitVec k) : (a ++ b).extractLsb' 0 k = b := by
  ext i hi
  simp [BitVec.getLsbD_append, hi]

theorem slice_high {m k : Nat} (a : BitVec m) (b : BitVec k) (j w : Nat) :
    (a ++ b).extractLsb' (k + j) w = a.extractLsb' j w := by
  ext i hi
  simp [BitVec.getLsbD_append, Nat.add_assoc]

theorem slice_whole {m : Nat} (a : BitVec m) : a.extractLsb' 0 m = a := by
  ext i hi
  simp

theorem concat_slices (m k : Nat) (w : BitVec (m + k)) : w.extractLsb' k m ++ w.extractLsb' 0 k = w := by
  ext i hi
  rw [BitVec.getElem_append]
  split
  · simp only [BitVec.getElem_extractLsb', Nat.zero_add, BitVec.getLsbD_eq_getElem hi]
  · next h =>
    simp only [BitVec.getElem_extractLsb', show k + (i - k) = i by omega, BitVec.getLsbD_eq_getElem hi]

theorem and_concat {m k : Nat} (a c : BitVec m) (b d : BitVec k) : (a ++ b) &&& (c ++ d) = (a &&& c) ++ (b &&& d) := by
  ext i hi
  simp only [BitVec.getElem_and, BitVec.getElem_append]
  split <;> rfl

/-! ## The fields of an assembled word -/

section
variable (op : BitVec 4) (nnn : Addr) (x y : Reg) (kk : Byte) (n : Nibble)

@[simp] theorem opOf_formatAddr : opOf (formatAddr op nnn) = op := (slice_high op nnn 0 4).trans (slice_whole op)

@[simp] theorem nnnOf_formatAddr : nnnOf (formatAddr op nnn) = nnn := slice_low op nnn

@[simp] theorem opOf_formatRk : opOf (formatRk op x kk) = op :=
  (slice_high (op ++ x) kk 4 4).trans ((slice_high op x 0 4).trans (slice_whole op))

@[simp] theorem xOf_formatRk : xOf (formatRk op x kk) = x :=
  (slice_high (op ++ x) kk 0 4).trans (slice_low op x)

@[simp] theorem kkOf_formatRk : kkOf (formatRk op x kk) = kk := slice_low (op ++ x) kk

@[simp] theorem opOf_formatRr : opOf (formatRr op x y n) = op :=
  (slice_high (op ++ x ++ y) n 8 4).trans ((slice_high (op ++ x) y 4 4).trans ((slice_high op x 0 4).trans (slice_whole op)))

@[simp] theorem xOf_formatRr : xOf (formatRr op x y n) = x :=
  (slice_high (op ++ x ++ y) n 4 4).trans ((slice_high (op ++ x) y 0 4).trans (slice_low op x))

@[simp] theorem yOf_formatRr : yOf (formatRr op x y n) = y :=
  (slice_high (op ++ x ++ y) n 0 4).trans (slice_low (op ++ x) y)

@[simp] theorem nOf_formatRr : nOf (formatRr op x y n) = n := slice_low (op ++ x ++ y) n

/-! ## What a mask keeps -/

theorem formatAddr_and (op' : BitVec 4) (nnn' : Addr) :
    formatAddr op nnn &&& formatAddr op' nnn' = formatAddr (op &&& op') (nnn &&& nnn') :=
  and_concat op op' nnn nnn'

theorem formatRk_and (op' : BitVec 4) (x' : Reg) (kk' : Byte) :
    formatRk op x kk &&& formatRk op' x' kk' = formatRk (op &&& op') (x &&& x') (kk &&& kk') :=
  (and_concat (op ++ x) (op' ++ x') kk kk').trans (congrArg (· ++ (kk &&& kk')) (and_concat op op' x x'))

theorem formatRk_concat (op op' : BitVec 4) (x x' y y' : Reg) :
    (op ++ x ++ y) &&& (op' ++ x' ++ y') = (op &&& op') ++ (x &&& x') ++ (y &&& y') :=
  (and_concat (op ++ x) (op' ++ x') y y').trans (congrArg (· ++ (y &&& y')) (and_concat op op' x x'))

theorem formatRr_and (op' : BitVec 4) (x' y' : Reg) (n' : Nibble) :
    formatRr op x y n &&& formatRr op' x' y' n' = formatRr (op &&& op') (x &&& x') (y &&& y') (n &&& n') :=
  (and_concat (op ++ x ++ y) (op' ++ x' ++ y') n n').trans
    (congrArg (· ++ (n &&& n')) (formatRk_concat op op' x x' y y'))

end

/-! ## A word from its fields -/

theorem formatAddr_fields (w : Word) : formatAddr (opOf w) (nnnOf w) = w := concat_slices 4 12 w

theorem formatRk_fields (w : Word) : formatRk (opOf w) (xOf w) (kkOf w) = w := by
  have h := concat_slices 4 4 (w.extractLsb' 8 8)
  have h1 : (w.extractLsb' 8 8).extractLsb' 4 4 = opOf w := by ext i hi; simp [opOf, ← Nat.add_assoc]; omega
  have h2 : (w.extractLsb' 8 8).extractLsb' 0 4 = xOf w := by ext i hi; simp [xOf]; omega
  rw [h1, h2] at h
  unfold formatRk
  rw [show (opOf w ++ xOf w : BitVec (4 + 4)) = w.extractLsb' 8 8 from h]
  exact concat_slices 8 8 w

theorem formatRr_fields (w : Word) : formatRr (opOf w) (xOf w) (yOf w) (nOf w) = w := by
  have h1 : (kkOf w).extractLsb' 4 4 = yOf w := by ext i hi; simp [kkOf, yOf]
  have h2 : (kkOf w).extractLsb' 0 4 = nOf w := by ext i hi; simp [kkOf, nOf]
  have h := concat_slices 4 4 (kkOf w)
  rw [h1, h2] at h
  refine Eq.trans ?_ (formatRk_fields w)
  unfold formatRk
  rw [← h]
  exact BitVec.append_assoc
end Sys2Proof
end

