-- ==== Sys2Proof/Laws/Memory.lean ====
section
/-! SUPPORT. What memory's operations do: a read after a write, and that every operation keeps the canonical form. -/

namespace Sys2Proof.Machine

variable (font : Font)

/-! ## Reads after writes -/

theorem Memory.read_filter_other {a q : Nat} (h : q ≠ a) (m : Memory) :
    Memory.read font (m.filter fun c => c.1 != a) q = Memory.read font m q := by
  induction m with
  | nil => rfl
  | cons c rest ih =>
    by_cases hc : c.1 = a
    · simp [hc, Memory.read, ih, h.symm]
    · simp [hc, Memory.read, ih]

theorem Memory.read_filter_same (a : Nat) (m : Memory) :
    Memory.read font (m.filter fun c => c.1 != a) a = Memory.unlisted font a := by
  induction m with
  | nil => rfl
  | cons c rest ih =>
    by_cases hc : c.1 = a
    · simpa [hc] using ih
    · simpa [hc, Memory.read] using ih

theorem Memory.read_insert_other {a q : Nat} (h : q ≠ a) (b : Byte) (m : Memory) :
    Memory.read font (Memory.insert m a b) q = Memory.read font m q := by
  induction m with
  | nil => simp [Memory.insert, Memory.read, h.symm]
  | cons c rest ih =>
    unfold Memory.insert
    split <;> simp [Memory.read, h.symm, ih]

theorem Memory.read_insert_same (a : Nat) (b : Byte) (m : Memory) (h : ∀ c ∈ m, c.1 ≠ a) :
    Memory.read font (Memory.insert m a b) a = b := by
  induction m with
  | nil => simp [Memory.insert, Memory.read]
  | cons c rest ih =>
    unfold Memory.insert
    split
    · simp [Memory.read]
    · have hc : c.1 ≠ a := h c (by simp)
      simp [Memory.read, hc, ih fun d hd => h d (by simp [hd])]

/-- A read after a write: the byte written at its address, every other byte as before; of any list, canonical or not. -/
theorem Memory.read_write (m : Memory) (a q : Nat) (b : Byte) :
    Memory.read font (Memory.write font m a b) q = if q = a then b else Memory.read font m q := by
  unfold Memory.write
  by_cases h : q = a
  · subst h
    split
    · next hb => simp [Memory.read_filter_same, hb]
    · simp only [if_true]
      exact Memory.read_insert_same font q b _ fun c hc => by simpa using (List.mem_filter.mp hc).2
  · split
    · simp only [Memory.read_filter_other font h]
    · simp only [Memory.read_insert_other font h, Memory.read_filter_other font h]

/-! ## The canonical form -/

theorem Memory.rising_cons {c : Host.Cell} {m : Memory} :
    Memory.rising (c :: m) = true ↔ (∀ d ∈ m, c.1 < d.1) ∧ Memory.rising m = true := by
  induction m generalizing c with
  | nil => simp [Memory.rising]
  | cons d rest ih =>
    constructor
    · intro h
      simp only [Memory.rising, Bool.and_eq_true, decide_eq_true_eq] at h
      refine ⟨fun e he => ?_, h.2⟩
      rcases List.mem_cons.mp he with rfl | he
      · exact h.1
      · exact lt_trans h.1 ((ih.mp h.2).1 e he)
    · rintro ⟨h, hr⟩
      simp [Memory.rising, h d (by simp), hr]

theorem Memory.rising_filter (p : Host.Cell → Bool) {m : Memory} (h : Memory.rising m = true) :
    Memory.rising (m.filter p) = true := by
  induction m with
  | nil => rfl
  | cons c rest ih =>
    obtain ⟨hc, hr⟩ := Memory.rising_cons.mp h
    by_cases hp : p c
    · simp only [List.filter_cons, hp, if_true]
      exact Memory.rising_cons.mpr ⟨fun d hd => hc d (List.mem_filter.mp hd).1, ih hr⟩
    · simpa [List.filter_cons, hp] using ih hr

theorem Memory.mem_insert {m : Memory} {a : Nat} {b : Byte} {c : Host.Cell} :
    c ∈ Memory.insert m a b ↔ c = (a, b) ∨ c ∈ m := by
  induction m with
  | nil => simp [Memory.insert]
  | cons d rest ih =>
    unfold Memory.insert
    split
    · simp
    · simp only [List.mem_cons, ih]; tauto

theorem Memory.rising_insert {m : Memory} (a : Nat) (b : Byte) (h : Memory.rising m = true)
    (ha : ∀ c ∈ m, c.1 ≠ a) : Memory.rising (Memory.insert m a b) = true := by
  induction m with
  | nil => rfl
  | cons d rest ih =>
    obtain ⟨hd, hr⟩ := Memory.rising_cons.mp h
    unfold Memory.insert
    split
    · next hlt =>
      exact Memory.rising_cons.mpr ⟨fun c hc => by
        rcases List.mem_cons.mp hc with rfl | hc
        · exact hlt
        · exact lt_trans hlt (hd c hc), h⟩
    · next hge =>
      refine Memory.rising_cons.mpr ⟨fun c hc => ?_, ih hr fun c hc => ha c (by simp [hc])⟩
      rcases Memory.mem_insert.mp hc with rfl | hc
      · exact lt_of_le_of_ne (Nat.le_of_not_lt hge) (ha d (by simp))
      · exact hd c hc

/-- A write keeps the canonical form. -/
theorem Memory.wf_write {m : Memory} (a : Nat) (b : Byte) (h : m.wf font = true) :
    (Memory.write font m a b).wf font = true := by
  simp only [Memory.wf, Bool.and_eq_true, List.all_eq_true] at h ⊢
  have hne : ∀ c ∈ m.filter (fun c => c.1 != a), c.1 ≠ a := fun c hc => by
    simpa using (List.mem_filter.mp hc).2
  have hr := Memory.rising_filter (fun c => c.1 != a) h.1
  unfold Memory.write
  split
  · exact ⟨hr, fun c hc => h.2 c (List.mem_filter.mp hc).1⟩
  · next hb =>
    refine ⟨Memory.rising_insert a b hr hne, fun c hc => ?_⟩
    rcases Memory.mem_insert.mp hc with rfl | hc
    · simpa using hb
    · exact h.2 c (List.mem_filter.mp hc).1

/-- A write lists no address but those listed and its own. -/
theorem Memory.mem_write {m : Memory} {a : Nat} {b : Byte} {c : Host.Cell} (h : c ∈ Memory.write font m a b) :
    c.1 = a ∨ c ∈ m := by
  unfold Memory.write at h
  split at h
  · exact .inr (List.mem_filter.mp h).1
  · rcases Memory.mem_insert.mp h with rfl | h
    · exact .inl rfl
    · exact .inr (List.mem_filter.mp h).1

/-! ## On the state -/

/-- A byte read after a byte written (20_memory.md R57). -/
theorem State.readByte_writeByte (s : State) (a q : Nat) (b : Byte) :
    (s.writeByte a b).readByte q = if q = a then b else s.readByte q :=
  Memory.read_write s.params.font s.mem a q b

/-- Storing bytes changes memory only. -/
theorem State.storeBytes_eq (s : State) (a : Nat) (bytes : List Byte) :
    s.storeBytes a bytes = { s with mem := (s.storeBytes a bytes).mem } := by
  induction bytes generalizing s a with
  | nil => rfl
  | cons b rest ih =>
    rw [State.storeBytes, ih]
    rfl

section storeBytes
variable (s : State) (a : Nat) (bytes : List Byte)

@[simp] theorem State.storeBytes_v : (s.storeBytes a bytes).v = s.v := by rw [State.storeBytes_eq]
@[simp] theorem State.storeBytes_getV (q : Reg) : (s.storeBytes a bytes).getV q = s.getV q := by
  rw [State.storeBytes_eq]; rfl
@[simp] theorem State.storeBytes_pc : (s.storeBytes a bytes).pc = s.pc := by rw [State.storeBytes_eq]
@[simp] theorem State.storeBytes_index : (s.storeBytes a bytes).index = s.index := by rw [State.storeBytes_eq]
@[simp] theorem State.storeBytes_dt : (s.storeBytes a bytes).dt = s.dt := by rw [State.storeBytes_eq]
@[simp] theorem State.storeBytes_st : (s.storeBytes a bytes).st = s.st := by rw [State.storeBytes_eq]
@[simp] theorem State.storeBytes_sd : (s.storeBytes a bytes).sd = s.sd := by rw [State.storeBytes_eq]
@[simp] theorem State.storeBytes_stk : (s.storeBytes a bytes).stk = s.stk := by rw [State.storeBytes_eq]
@[simp] theorem State.storeBytes_fb : (s.storeBytes a bytes).fb = s.fb := by rw [State.storeBytes_eq]
@[simp] theorem State.storeBytes_core : (s.storeBytes a bytes).core = s.core := by rw [State.storeBytes_eq]
@[simp] theorem State.storeBytes_params : (s.storeBytes a bytes).params = s.params := by rw [State.storeBytes_eq]
@[simp] theorem State.storeBytes_started : (s.storeBytes a bytes).started = s.started := by rw [State.storeBytes_eq]
@[simp] theorem State.storeBytes_input : (s.storeBytes a bytes).input = s.input := by rw [State.storeBytes_eq]
@[simp] theorem State.storeBytes_draws : (s.storeBytes a bytes).draws = s.draws := by rw [State.storeBytes_eq]
@[simp] theorem State.storeBytes_agenda : (s.storeBytes a bytes).agenda = s.agenda := by rw [State.storeBytes_eq]

end storeBytes

/-- Bytes read after bytes stored: byte `k` of the transfer at `a + k`, every other byte as before (20_memory.md R51). -/
theorem State.readByte_storeBytes (s : State) (a q : Nat) (bytes : List Byte) :
    (s.storeBytes a bytes).readByte q =
      if h : a ≤ q ∧ q - a < bytes.length then bytes[q - a]'h.2 else s.readByte q := by
  induction bytes generalizing s a with
  | nil => simp [State.storeBytes]
  | cons b rest ih =>
    rw [State.storeBytes, ih, State.readByte_writeByte]
    by_cases h : q = a
    · subst h; simp
    · by_cases h1 : a + 1 ≤ q ∧ q - (a + 1) < rest.length
      · have h2 : a ≤ q ∧ q - a < rest.length + 1 := by omega
        have h3 : q - a = q - (a + 1) + 1 := by omega
        simp [h1, h2, h3]
      · have h2 : ¬ (a ≤ q ∧ q - a < (b :: rest).length) := by rw [List.length_cons]; omega
        rw [dif_neg h1, dif_neg h2, if_neg h]

/-- A byte outside the transfer is as before. -/
theorem State.readByte_storeBytes_outside (s : State) (a q : Nat) (bytes : List Byte)
    (h : ¬ (a ≤ q ∧ q < a + bytes.length)) : (s.storeBytes a bytes).readByte q = s.readByte q := by
  rw [State.readByte_storeBytes]
  exact dif_neg fun h' => h (by omega)

end Sys2Proof.Machine
end

