-- ==== Sys2Proof/Laws/Exec.lean ====
section
/-! SUPPORT. What the shared operations of the meanings can answer: one lemma per operation, cited instead of unfolding
it; and that every instruction answers a next state. -/

namespace Sys2Proof.Machine

variable (s : State)

/-! ## Completing an instruction (40_sequencer.md R84) -/

@[simp] theorem State.finish_ok (t : State) : s.finish (.ok t) = .next t := rfl

@[simp] theorem State.finish_error (report : Report) : s.finish (.error report) = .next (s.raise report) := rfl

/-- An instruction that checks: it completes with its effects, or only reports. -/
theorem State.finish_cases {done : Except Report State} {t : State} (h : s.finish done = .next t) :
    done = .ok t ∨ ∃ report, done = .error report ∧ t = s.raise report := by
  cases done with
  | ok u => exact .inl (by simpa using h)
  | error report => exact .inr ⟨report, rfl, by simpa using h.symm⟩

@[simp] theorem except_map_ok {α β : Type} (f : α → β) (a : α) :
    (Except.ok a : Except Report α).map f = .ok (f a) := rfl

@[simp] theorem except_map_error {α β : Type} (f : α → β) (report : Report) :
    (Except.error report : Except Report α).map f = .error report := rfl

/-! ## Checks -/

/-- A transfer inside memory passes, an empty one always (20_memory.md R55). -/
theorem State.checkSpan_ok (kind : BoundsKind) (length : Nat) (h : length = 0 ∨ s.index.toNat + length ≤ memSize) :
    s.checkSpan kind length = .ok () := if_pos h

/-- A transfer past the end reports the lowest address past it (20_memory.md R55). -/
theorem State.checkSpan_error (kind : BoundsKind) {length : Nat} (h0 : 0 < length)
    (h : memSize < s.index.toNat + length) :
    s.checkSpan kind length = .error (.boundsFailure kind s.pc (max s.index.toNat memSize)) :=
  if_neg (by omega)

theorem State.checkKey_ok {k : Byte} (h : k.toNat ≤ 0xF) : s.checkKey k = .ok () := if_pos h

theorem State.checkKey_error {k : Byte} (h : 0xF < k.toNat) :
    s.checkKey k = .error (.boundsFailure .keyRange s.pc k.toNat) := if_neg (by omega)

theorem State.indexSum_ok {b : Byte} (h : s.index.toNat + b.toNat ≤ 0xFFFF) :
    s.indexSum b = .ok (s.index + byteWord b) := if_pos h

theorem State.indexSum_error {b : Byte} (h : 0xFFFF < s.index.toNat + b.toNat) :
    s.indexSum b = .error (.boundsFailure .indexOverflow s.pc (s.index.toNat + b.toNat)) := if_neg (by omega)

theorem State.fetch_ok (h : s.pc.toNat + 1 < memSize) :
    s.fetch = .ok (wordOfBytes (s.readByte s.pc.toNat) (s.readByte (s.pc.toNat + 1))) := if_pos h

theorem State.fetch_error (h : memSize ≤ s.pc.toNat + 1) :
    s.fetch = .error (.boundsFailure .fetch s.pc s.pc.toNat) := if_neg (by omega)

/-! ## The return stack (10_state.md R30, R31) -/

theorem State.push_ok (r : Word) (h : s.sd.val < stackCap) :
    s.push r = .ok { s with stk := s.stk.set s.sd.val r h, sd := ⟨s.sd.val + 1, Nat.succ_lt_succ h⟩ } := dif_pos h

theorem State.push_error (r : Word) (h : ¬ s.sd.val < stackCap) :
    s.push r = .error (.boundsFailure .stackPush s.pc s.sd.val) := dif_neg h

theorem State.pop_ok (h : 0 < s.sd.val) :
    s.pop = .ok (s.stk[s.sd.val - 1], { s with sd := ⟨s.sd.val - 1, by omega⟩ }) := dif_pos h

theorem State.pop_error (h : ¬ 0 < s.sd.val) :
    s.pop = .error (.boundsFailure .stackPop s.pc s.sd.val) := dif_neg h

/-! ## The key wait (45_timers_keys.md R132) -/

theorem State.awaitKey_some {k : Key} (x : Reg) (h : s.input.key = some k) :
    s.awaitKey x = { (s.setV x (k.zeroExtend 8)).advance with core := .ready } := by
  simp [State.awaitKey, h]

theorem State.awaitKey_none (x : Reg) (h : s.input.key = none) :
    s.awaitKey x = { s with core := .waitKey x } := by
  simp [State.awaitKey, h]

/-! ## Every instruction answers a next state -/

/-- No instruction faults or is refused: it completes, waits, or reports a failure in `CORE`. -/
theorem exec_next (i : Instr) (s : State) : ∃ t, exec i s = .next t := by
  cases i <;> exact ⟨_, rfl⟩

end Sys2Proof.Machine
end

