-- ==== Sys2Proof/Laws/PerInstr.lean ====
section
/-! SUPPORT. Facts about every instruction as syntax, one lemma per constructor. The family MapRow: the instruction's
word is its row's in the opcode map (30_encoding.md R77). -/

namespace Sys2Proof.Laws.MapRow

/-- The word the encoder gives matches the instruction's row of the opcode map. -/
def Statement (i : Instr) : Prop := i.row.holds (encode i) = true

/-- A row's test, as an equation. -/
theorem holds_of_eq {r : Row} {w : Word} (h : w &&& r.mask = r.value) : r.holds w = true := by
  simp [Row.holds, h]

section
variable (op : BitVec 4) (nnn : Addr) (x y : Reg) (kk : Byte) (n : Nibble)

theorem mask_addr : formatAddr op nnn &&& 0xF000 = formatAddr op 0 :=
  (formatAddr_and op nnn 0xF#4 0#12).trans (congrArg₂ formatAddr (BitVec.and_allOnes (x := op)) BitVec.and_zero)

theorem mask_rk : formatRk op x kk &&& 0xF000 = formatRk op 0 0 :=
  (formatRk_and op x kk 0xF#4 0#4 0#8).trans (by simp [BitVec.and_zero, show op &&& 0xF#4 = op from BitVec.and_allOnes])

theorem mask_rf : formatRk op x kk &&& 0xF0FF = formatRk op 0 kk :=
  (formatRk_and op x kk 0xF#4 0#4 0xFF#8).trans
    (by simp [show op &&& 0xF#4 = op from BitVec.and_allOnes, show kk &&& 0xFF#8 = kk from BitVec.and_allOnes])

theorem mask_rr : formatRr op x y n &&& 0xF00F = formatRr op 0 0 n :=
  (formatRr_and op x y n 0xF#4 0#4 0#4 0xF#4).trans
    (by simp [show op &&& 0xF#4 = op from BitVec.and_allOnes, show n &&& 0xF#4 = n from BitVec.and_allOnes])

theorem mask_rrn : formatRr op x y n &&& 0xF000 = formatRr op 0 0 0 :=
  (formatRr_and op x y n 0xF#4 0#4 0#4 0#4).trans (by simp [show op &&& 0xF#4 = op from BitVec.and_allOnes])

end

theorem cls : Statement .cls := holds_of_eq (by decide)
theorem ret : Statement .ret := holds_of_eq (by decide)
theorem jpAddr (nnn : Addr) : Statement (.jpAddr nnn) := holds_of_eq (mask_addr 0x1 nnn)
theorem callAddr (nnn : Addr) : Statement (.callAddr nnn) := holds_of_eq (mask_addr 0x2 nnn)
theorem seVxKk (x : Reg) (kk : Byte) : Statement (.seVxKk x kk) := holds_of_eq (mask_rk 0x3 x kk)
theorem sneVxKk (x : Reg) (kk : Byte) : Statement (.sneVxKk x kk) := holds_of_eq (mask_rk 0x4 x kk)
theorem seVxVy (x y : Reg) : Statement (.seVxVy x y) := holds_of_eq (mask_rr 0x5 x y 0x0)
theorem ldVxKk (x : Reg) (kk : Byte) : Statement (.ldVxKk x kk) := holds_of_eq (mask_rk 0x6 x kk)
theorem addVxKk (x : Reg) (kk : Byte) : Statement (.addVxKk x kk) := holds_of_eq (mask_rk 0x7 x kk)
theorem ldVxVy (x y : Reg) : Statement (.ldVxVy x y) := holds_of_eq (mask_rr 0x8 x y 0x0)
theorem orVxVy (x y : Reg) : Statement (.orVxVy x y) := holds_of_eq (mask_rr 0x8 x y 0x1)
theorem andVxVy (x y : Reg) : Statement (.andVxVy x y) := holds_of_eq (mask_rr 0x8 x y 0x2)
theorem xorVxVy (x y : Reg) : Statement (.xorVxVy x y) := holds_of_eq (mask_rr 0x8 x y 0x3)
theorem addVxVy (x y : Reg) : Statement (.addVxVy x y) := holds_of_eq (mask_rr 0x8 x y 0x4)
theorem subVxVy (x y : Reg) : Statement (.subVxVy x y) := holds_of_eq (mask_rr 0x8 x y 0x5)
theorem shrVxVy (x y : Reg) : Statement (.shrVxVy x y) := holds_of_eq (mask_rr 0x8 x y 0x6)
theorem subnVxVy (x y : Reg) : Statement (.subnVxVy x y) := holds_of_eq (mask_rr 0x8 x y 0x7)
theorem shlVxVy (x y : Reg) : Statement (.shlVxVy x y) := holds_of_eq (mask_rr 0x8 x y 0xE)
theorem sneVxVy (x y : Reg) : Statement (.sneVxVy x y) := holds_of_eq (mask_rr 0x9 x y 0x0)
theorem ldIAddr (nnn : Addr) : Statement (.ldIAddr nnn) := holds_of_eq (mask_addr 0xA nnn)
theorem jpV0Addr (nnn : Addr) : Statement (.jpV0Addr nnn) := holds_of_eq (mask_addr 0xB nnn)
theorem rndVxKk (x : Reg) (kk : Byte) : Statement (.rndVxKk x kk) := holds_of_eq (mask_rk 0xC x kk)
theorem drwVxVyN (x y : Reg) (n : Nibble) : Statement (.drwVxVyN x y n) := holds_of_eq (mask_rrn 0xD x y n)
theorem skpVx (x : Reg) : Statement (.skpVx x) := holds_of_eq (mask_rf 0xE x 0x9E)
theorem sknpVx (x : Reg) : Statement (.sknpVx x) := holds_of_eq (mask_rf 0xE x 0xA1)
theorem ldVxDt (x : Reg) : Statement (.ldVxDt x) := holds_of_eq (mask_rf 0xF x 0x07)
theorem ldVxK (x : Reg) : Statement (.ldVxK x) := holds_of_eq (mask_rf 0xF x 0x0A)
theorem ldDtVx (x : Reg) : Statement (.ldDtVx x) := holds_of_eq (mask_rf 0xF x 0x15)
theorem ldStVx (x : Reg) : Statement (.ldStVx x) := holds_of_eq (mask_rf 0xF x 0x18)
theorem addIVx (x : Reg) : Statement (.addIVx x) := holds_of_eq (mask_rf 0xF x 0x1E)
theorem ldFVx (x : Reg) : Statement (.ldFVx x) := holds_of_eq (mask_rf 0xF x 0x29)
theorem bcdVx (x : Reg) : Statement (.bcdVx x) := holds_of_eq (mask_rf 0xF x 0x33)
theorem ldMemVx (x : Reg) : Statement (.ldMemVx x) := holds_of_eq (mask_rf 0xF x 0x55)
theorem ldVxMem (x : Reg) : Statement (.ldVxMem x) := holds_of_eq (mask_rf 0xF x 0x65)

end Sys2Proof.Laws.MapRow
end

