-- ==== Sys2Proof/Laws/Safety.lean ====
section
/-! SUPPORT. Memory stays well formed, in the terms of Safety.lean. -/

namespace Sys2Proof.Machine

/-- A byte written inside the address space keeps memory well formed (20_memory.md R48). -/
theorem State.memOk_writeByte {s : State} {a : Nat} (b : Byte) (h : s.memOk = true) (ha : a < memSize) :
    (s.writeByte a b).memOk = true := by
  simp only [State.memOk, Bool.and_eq_true, List.all_eq_true, decide_eq_true_eq] at h ⊢
  refine ⟨Memory.wf_write _ a b h.1, fun c hc => ?_⟩
  rcases Memory.mem_write _ hc with h' | h'
  · omega
  · exact h.2 c h'

/-- A transfer inside the address space keeps memory well formed (20_memory.md R48, R55). -/
theorem State.memOk_storeBytes {s : State} {a : Nat} (bytes : List Byte) (h : s.memOk = true)
    (ha : a + bytes.length ≤ memSize) : (s.storeBytes a bytes).memOk = true := by
  induction bytes generalizing s a with
  | nil => exact h
  | cons b rest ih =>
    rw [List.length_cons] at ha
    exact ih (State.memOk_writeByte b h (by omega)) (by omega)

end Sys2Proof.Machine
end

