-- ==== Sys2Proof/Laws/Step.lean ====
section
/-! SUPPORT. What a step can do, said once: one lemma for the core's move and one for the step, for proofs about every
step to cite. -/

namespace Sys2Proof.Machine

/-- A step of an instruction: the fetch fails, the decode fails, or the instruction is executed (40_sequencer.md R78,
60_exceptions.md R143). -/
theorem runInstruction_cases {s t : State} (h : runInstruction s = .next t) :
    (∃ report, s.fetch = .error report ∧ t = s.raise report) ∨
    (∃ w e, s.fetch = .ok w ∧ decode w = .error e ∧ t = s.raise (.decodeFailure w s.pc)) ∨
    (∃ w i, s.fetch = .ok w ∧ decode w = .ok i ∧ exec i s = .next t) := by
  unfold runInstruction at h
  split at h
  · next report hf => exact .inl ⟨report, hf, by simpa using h.symm⟩
  · next w hf =>
    split at h
    · next e hd => exact .inr (.inl ⟨w, e, hf, hd, by simpa using h.symm⟩)
    · next i hd => exact .inr (.inr ⟨w, i, hf, hd, h⟩)

/-- The core's move: nothing after a failure, the key wait, or an instruction (40_sequencer.md R86, R87). -/
theorem coreMove_cases {s t : State} {input : StepInput} (h : coreMove s input = .next t) :
    ((∃ report, s.core = .failed report) ∧ t = s) ∨
    (∃ x, s.core = .waitKey x ∧ t = (s.latch input).awaitKey x) ∨
    (s.core = .ready ∧ runInstruction (s.latch input) = .next t) := by
  unfold coreMove at h
  split at h
  · next report hc => exact .inl ⟨⟨report, hc⟩, by simpa using h.symm⟩
  · next x hc => exact .inr (.inl ⟨x, hc, by simpa using h.symm⟩)
  · next hc => exact .inr (.inr ⟨hc, h⟩)

/-! ## Which move comes next (40_sequencer.md R88) -/

theorem State.nextMove_cons {s : State} {m : HostMove} {rest : List HostMove} (h : s.agenda = m :: rest) :
    s.nextMove = (m, { s with agenda := rest }) := by
  simp [State.nextMove, h]

theorem State.nextMove_nil {s : State} (h : s.agenda = []) :
    s.nextMove = (s.settle (Config.hostMove s.draws) (Config.input s.draws), { s with draws := s.draws + 1 }) := by
  simp [State.nextMove, h]

/-- Choosing the next move changes nothing but the model's own account of the host. -/
theorem State.nextMove_state (s : State) :
    ∃ draws agenda, s.nextMove.2 = { s with draws := draws, agenda := agenda } := by
  unfold State.nextMove
  split
  · exact ⟨_, s.agenda, rfl⟩
  · exact ⟨s.draws, _, rfl⟩

/-- A choice the rules admit is the move made. -/
theorem State.settle_admitted {s : State} {m : HostMove} (h : s.admits m = true) (input : StepInput) :
    s.settle m input = m := if_pos h

/-- The move made is one the rules admit. -/
theorem State.admits_settle (s : State) (m : HostMove) (input : StepInput) : s.admits (s.settle m input) = true := by
  unfold State.settle
  split
  · assumption
  · rfl

/-- A step is the move that comes next. -/
theorem step_eq (s : State) : step s = hostMove s.nextMove.1 s.nextMove.2 := rfl

/-- What a move of the host can do. -/
theorem hostMove_cases {m : HostMove} {s t : State} (h : hostMove m s = .next t) :
    (∃ input, m = .proceed input ∧ coreMove s input = .next t) ∨
    (m = .tick ∧ t = s.tick) ∨
    (m = .snapshot ∧ t = s.snapshot.2) ∨
    ((m = .isDirty ∨ m = .dimensions) ∧ t = s) ∨
    (∃ bytes start, m = .load bytes start ∧ s.started = false ∧
      start.getD s.pc.toNat + bytes.length ≤ memSize ∧ t = s.storeBytes (start.getD s.pc.toNat) bytes) := by
  cases m with
  | proceed input => exact .inl ⟨input, rfl, h⟩
  | tick => exact .inr (.inl ⟨rfl, by simpa [hostMove] using h.symm⟩)
  | snapshot => exact .inr (.inr (.inl ⟨rfl, by simpa [hostMove] using h.symm⟩))
  | isDirty => exact .inr (.inr (.inr (.inl ⟨.inl rfl, by simpa [hostMove] using h.symm⟩)))
  | dimensions => exact .inr (.inr (.inr (.inl ⟨.inr rfl, by simpa [hostMove] using h.symm⟩)))
  | load bytes start =>
    refine .inr (.inr (.inr (.inr ⟨bytes, start, rfl, ?_⟩)))
    simp only [hostMove, State.load] at h
    split at h
    · cases h
    · next hs =>
      split at h
      · next hl => exact ⟨by simpa using hs, hl, by simpa using h.symm⟩
      · cases h
  | noKey => simp [hostMove] at h

/-- An invariant of every step, from what each kind of transaction keeps. -/
theorem step_keeps {P : State → Prop}
    (bookkeeping : ∀ (s : State) input started draws agenda, P s →
      P { s with input := input, started := started, draws := draws, agenda := agenda })
    (instruction : ∀ (i : Instr) (s t : State), P s → s.core = .ready → s.pc.toNat + 1 < memSize → exec i s = .next t → P t)
    (wait : ∀ (s : State) (x : Reg), P s → s.core = .waitKey x → P (s.awaitKey x))
    (raise : ∀ (s : State) (report : Report), P s → P (s.raise report))
    (tick : ∀ s : State, P s → P s.tick)
    (snapshot : ∀ s : State, P s → P s.snapshot.2)
    (load : ∀ (s : State) (a : Nat) (bytes : List Byte), P s → a + bytes.length ≤ memSize → P (s.storeBytes a bytes))
    {s t : State} (hs : P s) (h : step s = .next t) : P t := by
  have core : ∀ (s t : State) (input : StepInput), P s → coreMove s input = .next t → P t := by
    intro s t input hs h
    rcases coreMove_cases h with ⟨_, rfl⟩ | ⟨x, hx, rfl⟩ | ⟨hc, h⟩
    · exact hs
    · exact wait _ x (bookkeeping s input true s.draws s.agenda hs) hx
    · have hl : P (s.latch input) := bookkeeping s input true s.draws s.agenda hs
      rcases runInstruction_cases h with ⟨r, _, rfl⟩ | ⟨w, _, _, _, rfl⟩ | ⟨w, i, hf, _, he⟩
      · exact raise _ r hl
      · exact raise _ _ hl
      · refine instruction i _ t hl hc ?_ he
        by_contra hb
        rw [State.fetch_error _ (by omega)] at hf
        cases hf
  rw [step_eq] at h
  obtain ⟨draws, agenda, hn⟩ := s.nextMove_state
  have hr : P s.nextMove.2 := hn ▸ bookkeeping s s.input s.started draws agenda hs
  rcases hostMove_cases h with ⟨input, _, h⟩ | ⟨_, rfl⟩ | ⟨_, rfl⟩ | ⟨_, rfl⟩ | ⟨bytes, start, _, _, hl, rfl⟩
  · exact core _ _ _ hr h
  · exact tick _ hr
  · exact snapshot _ hr
  · exact hr
  · exact load _ _ bytes hr hl

/-- Every move the rules admit answers a next state: the host's free choices never stop the machine. -/
theorem hostMove_next {s : State} {m : HostMove} (h : s.admits m = true) : ∃ t, hostMove m s = .next t := by
  cases m with
  | proceed input =>
    simp only [hostMove, coreMove]
    split
    · exact ⟨_, rfl⟩
    · exact ⟨_, rfl⟩
    · unfold runInstruction
      split
      · exact ⟨_, rfl⟩
      · split
        · exact ⟨_, rfl⟩
        · exact exec_next _ _
  | tick => exact ⟨_, rfl⟩
  | snapshot => exact ⟨_, rfl⟩
  | isDirty => exact ⟨_, rfl⟩
  | dimensions => exact ⟨_, rfl⟩
  | load bytes start =>
    simp only [State.admits, Bool.and_eq_true, Bool.not_eq_true', decide_eq_true_eq] at h
    exact ⟨s.storeBytes (start.getD s.pc.toNat) bytes, by simp [hostMove, State.load, h.1, h.2]⟩
  | noKey => simp [State.admits] at h

end Sys2Proof.Machine
end

