-- ==== Sys2Proof/Tests/Slice0.lean ====
section
/-! SUPPORT. Tests against 95_test_vectors.md (each names its vector, whose result the spec states), one or two a
instruction, and for each obligation with hypotheses a state and operands that meet them. -/

namespace Sys2Proof.Tests

open Sys2Proof Sys2Proof.Machine

/-! ## Helpers -/

/-- The start state of the vectors: reset (its conventions and row G1). -/
abbrev start : State := State.reset

/-- Inputs no instruction of the test draws. -/
abbrev quiet : StepInput := { random := 0, keys := 0, key := none }

/-- The vector's word placed at `PC`, its inputs at hand. -/
def ready (s : State) (w : Nat) (input : StepInput := quiet) : State :=
  { s.withFetchWord 16 w with agenda := [.proceed input] }

/-- The state an outcome gives, if it gives one. -/
def stateOf : Host.Outcome State Fault Refusal → Option State
  | .next t => some t
  | .fault _ => none
  | .refused _ => none

/-- What is read from the state after one step of the word. -/
def after {α : Type} (s : State) (w : Nat) (read : State → α) (input : StepInput := quiet) : Option α :=
  (stateOf (step (ready s w input))).map read

/-- What is read from the state after executing the instruction. -/
def done {α : Type} (i : Instr) (s : State) (read : State → α) : Option α := (stateOf (exec i s)).map read

/-! ## Well-formed words: one refused word for each selector of 30_encoding.md R70, and one accepted beside it -/

theorem test_wf_family_0 : legalWord 0x0000 = false ∧ legalWord 0x00E1 = false ∧ legalWord 0x00E0 = true := by decide
theorem test_wf_family_5 : legalWord 0x5001 = false ∧ legalWord 0x5120 = true := by decide
theorem test_wf_family_8 : legalWord 0x8008 = false ∧ legalWord 0x800F = false ∧ legalWord 0x800E = true := by decide
theorem test_wf_family_9 : legalWord 0x9121 = false ∧ legalWord 0x9120 = true := by decide
theorem test_wf_family_e : legalWord 0xE000 = false ∧ legalWord 0xE09E = true := by decide
theorem test_wf_family_f : legalWord 0xF000 = false ∧ legalWord 0xF0FF = false ∧ legalWord 0xF065 = true := by decide

/-! ## Decoding: a word of every constructor, written out from 30_encoding.md R68 and R77 -/

theorem test_decode_control :
    decode 0x00EE = .ok .ret ∧ decode 0x1204 = .ok (.jpAddr 0x204) ∧ decode 0x2ABC = .ok (.callAddr 0xABC) ∧
    decode 0x3A1F = .ok (.seVxKk 0xA 0x1F) ∧ decode 0x4A1F = .ok (.sneVxKk 0xA 0x1F) ∧
    decode 0x5120 = .ok (.seVxVy 0x1 0x2) ∧ decode 0x9120 = .ok (.sneVxVy 0x1 0x2) ∧
    decode 0xB123 = .ok (.jpV0Addr 0x123) := by decide

theorem test_decode_loads :
    decode 0x6A7B = .ok (.ldVxKk 0xA 0x7B) ∧ decode 0x70FF = .ok (.addVxKk 0x0 0xFF) ∧
    decode 0xC30F = .ok (.rndVxKk 0x3 0x0F) := by decide

theorem test_decode_alu :
    decode 0x8120 = .ok (.ldVxVy 0x1 0x2) ∧ decode 0x8121 = .ok (.orVxVy 0x1 0x2) ∧
    decode 0x8122 = .ok (.andVxVy 0x1 0x2) ∧ decode 0x8123 = .ok (.xorVxVy 0x1 0x2) ∧
    decode 0x8124 = .ok (.addVxVy 0x1 0x2) ∧ decode 0x8125 = .ok (.subVxVy 0x1 0x2) ∧
    decode 0x8126 = .ok (.shrVxVy 0x1 0x2) ∧ decode 0x8127 = .ok (.subnVxVy 0x1 0x2) ∧
    decode 0x812E = .ok (.shlVxVy 0x1 0x2) := by decide

theorem test_decode_index :
    decode 0xA300 = .ok (.ldIAddr 0x300) ∧ decode 0xF21E = .ok (.addIVx 0x2) ∧ decode 0xF229 = .ok (.ldFVx 0x2) ∧
    decode 0xFA33 = .ok (.bcdVx 0xA) ∧ decode 0xF155 = .ok (.ldMemVx 0x1) ∧ decode 0xF265 = .ok (.ldVxMem 0x2) := by
  decide

theorem test_decode_display :
    decode 0x00E0 = .ok .cls ∧ decode 0xD125 = .ok (.drwVxVyN 0x1 0x2 0x5) := by decide

theorem test_decode_keys_timers :
    decode 0xE39E = .ok (.skpVx 0x3) ∧ decode 0xE3A1 = .ok (.sknpVx 0x3) ∧ decode 0xF307 = .ok (.ldVxDt 0x3) ∧
    decode 0xF40A = .ok (.ldVxK 0x4) ∧ decode 0xF215 = .ok (.ldDtVx 0x2) ∧ decode 0xF218 = .ok (.ldStVx 0x2) := by
  decide

/-- 20_memory.md R50: the byte at the lower address is the high one. -/
theorem test_decode_bytes_big_endian :
    decodeBytes [0x6A, 0x7B, 0xFF] = .ok (.ldVxKk 0xA 0x7B) ∧ decodeBytes [0x6A] = .error .truncated := by decide

/-! ## Steps -/

/-- A1 -/
theorem test_ld_byte : after start 0x6A7B (fun t => (t.getV 0xA, t.pc)) = some (0x7B, 0x202) := by decide
/-- A2 -/
theorem test_ld_byte_into_flag_register : after start 0x6F01 (fun t => (t.getVF, t.pc)) = some (1, 0x202) := by decide
/-- A3 -/
theorem test_add_byte_wraps :
    after (start.setV 0 0xFE) 0x7003 (fun t => (t.getV 0, t.getVF, t.pc)) = some (1, 0, 0x202) := by decide
/-- A5 -/
theorem test_add_byte_leaves_flag :
    after (start.setV 0xF 7) 0x70FF (fun t => (t.getV 0, t.getVF)) = some (0xFF, 7) := by decide
/-- A6 -/
theorem test_ld_register : after (start.setV 2 0x33) 0x8120 (fun t => (t.getV 1, t.pc)) = some (0x33, 0x202) := by decide
/-- A7 -/
theorem test_or : after (((start.setV 1 0xF0).setV 2 0x0F).setV 0xF 5) 0x8121 (fun t => (t.getV 1, t.getVF)) =
    some (0xFF, 5) := by decide
/-- A8 -/
theorem test_and : after ((start.setV 1 0xF0).setV 2 0x3C) 0x8122 (fun t => t.getV 1) = some 0x30 := by decide
/-- A9 -/
theorem test_xor : after ((start.setV 1 0xF0).setV 2 0x3C) 0x8123 (fun t => t.getV 1) = some 0xCC := by decide
/-- A12 -/
theorem test_add_255_no_carry :
    after ((start.setV 0 0x80).setV 1 0x7F) 0x8014 (fun t => (t.getV 0, t.getVF)) = some (0xFF, 0) := by decide
/-- A15 -/
theorem test_add_flag_as_source :
    after ((start.setV 1 0x10).setV 0xF 0x20) 0x81F4 (fun t => (t.getV 1, t.getVF)) = some (0x30, 0) := by decide
/-- A17 -/
theorem test_sub_equal :
    after ((start.setV 0 7).setV 1 7) 0x8015 (fun t => (t.getV 0, t.getVF)) = some (0, 1) := by decide
/-- A18 -/
theorem test_sub_borrow : after (start.setV 1 1) 0x8015 (fun t => (t.getV 0, t.getVF)) = some (0xFF, 0) := by decide
/-- A24 -/
theorem test_shr_flag_register : after (start.setV 0xF 2) 0x8F06 (fun t => t.getVF) = some 0 := by decide
/-- A25 -/
theorem test_shr_from_vy :
    after { (start.setV 0 5).setV 1 0xFF with params := { start.params with shiftSrc := .vy } } 0x8016
      (fun t => (t.getV 0, t.getV 1, t.getVF)) = some (0x7F, 0xFF, 1) := by decide
/-- A20 -/
theorem test_subn : after ((start.setV 0 5).setV 1 7) 0x8017 (fun t => (t.getV 0, t.getVF)) = some (2, 1) := by decide
/-- A21 -/
theorem test_subn_borrow :
    after ((start.setV 0 7).setV 1 5) 0x8017 (fun t => (t.getV 0, t.getVF)) = some (0xFE, 0) := by decide
/-- A26 -/
theorem test_shl : after (start.setV 0 0x81) 0x800E (fun t => (t.getV 0, t.getVF)) = some (2, 1) := by decide
/-- A28 -/
theorem test_shl_from_vy :
    after { (start.setV 0 1).setV 1 0x80 with params := { start.params with shiftSrc := .vy } } 0x801E
      (fun t => (t.getV 0, t.getVF)) = some (0, 1) := by decide
/-- A29 -/
theorem test_rnd_masks : after start 0xC30F (fun t => (t.getV 3, t.pc)) { quiet with random := 0xA7 } =
    some (7, 0x202) := by decide

/-- B1, the slot keeping its value -/
theorem test_ret :
    after { start.setPc 0x20C with sd := 1, stk := start.stk.set 0 0x206 } 0x00EE (fun t => (t.pc, t.sd, t.stk[0])) =
      some (0x206, 0, 0x206) := by decide
/-- B2 -/
theorem test_ret_empty : after (start.setPc 0x20C) 0x00EE (fun t => (t.core, t.pc)) =
    some (.failed (.boundsFailure .stackPop 0x20C 0), 0x20C) := by decide
/-- B4 -/
theorem test_jp : after start 0x1FFF (fun t => t.pc) = some 0xFFF := by decide
/-- F12 -/
theorem test_jp_to_itself : after (start.setPc 0xFFE) 0x1FFE (fun t => (t.pc, t.core)) = some (0xFFE, .ready) := by
  decide
/-- B7 -/
theorem test_call_at_the_end :
    after (start.setPc 0xFFE) 0x2000 (fun t => (t.pc, t.sd, t.stk[0])) = some (0, 1, 0x1000) := by decide
/-- B6 -/
theorem test_call_full :
    after { start.setPc 0x204 with sd := 16, stk := Vector.replicate 16 0x202 } 0x2300 (fun t => (t.core, t.sd, t.pc)) =
      some (.failed (.boundsFailure .stackPush 0x204 0x10), 16, 0x204) := by decide
/-- B8, B9 -/
theorem test_se_byte :
    after ((start.setPc 0x300).setV 3 0x10) 0x3310 (fun t => t.pc) = some 0x304 ∧
    after ((start.setPc 0x300).setV 3 0x10) 0x3311 (fun t => t.pc) = some 0x302 := by decide
/-- B10, B11 -/
theorem test_sne_byte :
    after ((start.setPc 0x300).setV 3 0x10) 0x4310 (fun t => t.pc) = some 0x302 ∧
    after ((start.setPc 0x300).setV 3 0x10) 0x4311 (fun t => t.pc) = some 0x304 := by decide
/-- B12, B13 -/
theorem test_se_register :
    after ((start.setV 1 7).setV 2 7) 0x5120 (fun t => t.pc) = some 0x204 ∧
    after ((start.setV 1 7).setV 2 8) 0x5120 (fun t => t.pc) = some 0x202 := by decide
/-- B15, B16 -/
theorem test_sne_register :
    after ((start.setV 1 7).setV 2 8) 0x9120 (fun t => t.pc) = some 0x204 ∧
    after (start.setV 1 7) 0x9110 (fun t => t.pc) = some 0x202 := by decide
/-- B19 -/
theorem test_jp_v0_past_the_end : after (start.setV 0 0xFF) 0xBFFF (fun t => t.pc) = some 0x10FE := by decide
/-- B21 -/
theorem test_skip_to_the_end : after (start.setPc 0xFFC) 0x3000 (fun t => t.pc) = some 0x1000 := by decide

/-- C1 -/
theorem test_ld_i : after start 0xA300 (fun t => (t.index, t.pc)) = some (0x300, 0x202) := by decide
/-- C5 -/
theorem test_add_i_to_the_top :
    after ((start.setV 2 0xFF).setIndex 0xFF00) 0xF21E (fun t => (t.index, t.core)) = some (0xFFFF, .ready) := by decide
/-- C4 -/
theorem test_add_i_overflow :
    after ((start.setV 2 0x10).setIndex 0xFFF0) 0xF21E (fun t => (t.index, t.core)) =
      some (0xFFF0, .failed (.boundsFailure .indexOverflow 0x200 0x10000)) := by decide
/-- C6 -/
theorem test_ld_f : after (start.setV 0 0x0A) 0xF029 (fun t => t.index) = some 0x032 := by decide
/-- C8 -/
theorem test_ld_f_unmasked : after (start.setV 0 0xFF) 0xF029 (fun t => t.index) = some 0x4FB := by decide
/-- C10 -/
theorem test_bcd :
    after ((start.setV 0xA 0xFF).setIndex 0x300) 0xFA33
      (fun t => (t.readByte 0x300, t.readByte 0x301, t.readByte 0x302, t.index)) = some (2, 5, 5, 0x300) := by decide
/-- C12 -/
theorem test_bcd_past_the_end :
    after ((start.setV 0xA 7).setIndex 0xFFE) 0xFA33 (fun t => (t.core, t.readByte 0xFFE, t.readByte 0xFFF)) =
      some (.failed (.boundsFailure .memWrite 0x200 0x1000), 0, 0) := by decide
/-- C14 -/
theorem test_store_registers :
    after (((start.setV 0 1).setV 1 2).setIndex 0x400) 0xF155
      (fun t => (t.readByte 0x400, t.readByte 0x401, t.readByte 0x402, t.index)) = some (1, 2, 0, 0x400) := by decide
/-- C17 -/
theorem test_store_registers_to_the_end :
    after ((start.setV 0xF 0xAA).setIndex 0xFF0) 0xFF55 (fun t => (t.readByte 0xFFF, t.core)) = some (0xAA, .ready) := by
  decide
/-- C18 -/
theorem test_load_registers :
    after ((start.storeBytes 0x300 [1, 2, 3, 4]).setIndex 0x300) 0xF265
      (fun t => (t.getV 0, t.getV 1, t.getV 2, t.getV 3)) = some (1, 2, 3, 0) := by decide
/-- C20 -/
theorem test_load_registers_past_the_end :
    after (start.setIndex 0xFFF) 0xF165 (fun t => t.core) =
      some (.failed (.boundsFailure .memRead 0x200 0x1000)) := by decide

/-- The state of D1: two pixels on. -/
def lit : State := { start with fb := { lit := [⟨0, 0⟩, ⟨63, 31⟩], dirty := false } }

/-- D1 -/
theorem test_cls : after lit 0x00E0 (fun t => (t.fb, t.pc)) = some (⟨[], true⟩, 0x202) := by decide
/-- D3, L1.4: the collision of the second draw in `test_drw_erases` -/
theorem test_drw :
    after (((start.setV 1 0x3E).setIndex 0x300).writeByte 0x300 0xC0) 0xD121 (fun t => (t.fb, t.getVF)) =
      some (⟨[⟨62, 0⟩, ⟨63, 0⟩], true⟩, 0) := by decide
/-- D4 -/
theorem test_drw_erases :
    after { ((start.setV 1 0x3E).setIndex 0x300).writeByte 0x300 0xC0 with fb := ⟨[⟨62, 0⟩, ⟨63, 0⟩], true⟩ } 0xD121
      (fun t => (t.fb, t.getVF)) = some (⟨[], true⟩, 1) := by decide

/-- E1, E2 -/
theorem test_skp :
    after ((start.setPc 0x202).setV 0 5) 0xE09E (fun t => t.pc) { quiet with keys := 0x0020 } = some 0x206 ∧
    after ((start.setPc 0x202).setV 0 5) 0xE09E (fun t => t.pc) = some 0x204 := by decide
/-- E6 -/
theorem test_skp_field :
    after { (start.setPc 0x202).setV 3 0x20 with params := { start.params with keySrc := .field } } 0xE39E
      (fun t => t.pc) { quiet with keys := 0x0008 } = some 0x206 := by decide
/-- E3, E4 -/
theorem test_sknp :
    after ((start.setPc 0x202).setV 0 5) 0xE0A1 (fun t => t.pc) = some 0x206 ∧
    after ((start.setPc 0x202).setV 0 5) 0xE0A1 (fun t => t.pc) { quiet with keys := 0x0020 } = some 0x204 := by decide
/-- E5, on both polls -/
theorem test_key_range :
    after ((start.setPc 0x202).setV 0 0x10) 0xE09E (fun t => (t.core, t.pc)) =
      some (.failed (.boundsFailure .keyRange 0x202 0x10), 0x202) := by decide
/-- E7 -/
theorem test_ld_from_dt : after (start.setDt 0x3C) 0xF307 (fun t => (t.getV 3, t.pc)) = some (0x3C, 0x202) := by decide
/-- E9 -/
theorem test_key_wait_into_flag_register :
    after (start.setV 0xF 1) 0xFF0A (fun t => (t.getVF, t.pc)) { quiet with key := some 3 } = some (3, 0x202) := by decide
/-- E14 -/
theorem test_key_wait_suspends :
    after (start.setPc 0x20C) 0xF40A (fun t => (t.core, t.getV 4, t.pc, t.stepResult)) =
      some (.waitKey 4, 0, 0x20C, .pending) := by decide
/-- E12 -/
theorem test_ld_dt : after (start.setDt 9) 0xF015 (fun t => t.dt) = some 0 := by decide
/-- E11 -/
theorem test_ld_st : after (start.setV 2 0x10) 0xF218 (fun t => (t.st, t.dt)) = some (0x10, 0) := by decide

/-! ## Failures of the sequencer, the host's transactions, the assembler spelling -/

/-- L1.8 -/
theorem test_decode_failure :
    after start 0x5001 (fun t => (t.core, t.pc, t.v)) =
      some (.failed (.decodeFailure 0x5001 0x200), 0x200, start.v) := by decide
/-- F9 -/
theorem test_fetch_failure :
    (stateOf (runInstruction (start.setPc 0xFFF))).map (fun t => t.core) =
      some (.failed (.boundsFailure .fetch 0xFFF 0xFFF)) := by decide
/-- F13 -/
theorem test_failure_is_final :
    let failed : State := { start with core := .failed (.decodeFailure 0x5001 0x200) }
    stateOf (step { failed with agenda := [.proceed quiet] }) = some failed ∧
    failed.stepResult = .failure (.decodeFailure 0x5001 0x200) := by decide
/-- F1 to F14: a failure's codes (60_exceptions.md R140) -/
theorem test_report_codes :
    (Report.decodeFailure 0 0).code = 0x01 ∧ (Report.boundsFailure .indexOverflow 0 0).code = 0x16 := by decide

/-- G1 -/
theorem test_construct :
    start.pc = 0x200 ∧ start.readByte 0x032 = 0xF0 ∧ start.readByte 0x04F = 0x80 ∧ start.readByte 0x050 = 0 := by decide
/-- G3 -/
theorem test_construct_short_font :
    stateOf (construct 0x200 (some (List.replicate 79 0)) .standard .vx .reg) = none := by decide
/-- G4, G5 -/
theorem test_load :
    (stateOf (start.load [0x12, 0x00] none)).map (fun t => (t.readByte 0x200, t.readByte 0x201)) = some (0x12, 0) ∧
    (stateOf (start.load [0xAA, 0xBB] (some 0xFFE))).map (fun t => (t.readByte 0xFFE, t.readByte 0xFFF)) =
      some (0xAA, 0xBB) := by decide
/-- G6, G7 -/
theorem test_load_past_the_end :
    stateOf (start.load [0xAA, 0xBB, 0xCC] (some 0xFFE)) = none ∧ stateOf (start.load [] none) = some start := by decide
/-- T1, T2 -/
theorem test_tick :
    (start.setDt 2).tick.dt = 1 ∧ (start.setDt 2).tick.tick.tick.dt = 0 ∧ (start.setSt 5).tick.st = 4 := by decide
/-- D17 -/
theorem test_snapshot_clears_dirty :
    let s : State := { start with fb := ⟨[⟨62, 0⟩, ⟨63, 0⟩], true⟩ }
    s.isDirty = true ∧ s.snapshot.2.isDirty = false ∧ s.snapshot.2.fb.lit = s.fb.lit := by decide
/-- D20 -/
theorem test_dimensions :
    State.dimensions { start with params := { start.params with geom := .extended } } = (128, 64) := by decide
/-- The assembly column of P2, P3 and P4 -/
theorem test_text :
    Instr.text .vx (.ldVxKk 0xA 0x7B) = "LD VA, 7B" ∧ Instr.text .vx (.drwVxVyN 1 2 5) = "DRW V1, V2, 5" ∧
    Instr.text .vx (.ldVxMem 2) = "LD V2, [I]" ∧ Instr.text .vx (.callAddr 0x20A) = "CALL 20A" := by decide

/-! ## Witnesses: for each obligation with hypotheses, concrete values that meet them, one for each clause at the edge
of its range -/

/-- EncodeDecodeRoundTrip, DecoderAcceptsTheOpcodeMap -/
theorem witness_decoded_word : decode 0x8126 = .ok (.shrVxVy 1 2) ∧ decode 0x8128 = .error .unrecognizedOperation := by
  decide

/-- IllegalWordsAreRejected: a word of each clause, fetched -/
theorem witness_illegal_words :
    (start.storeBytes 0x200 [0x00, 0xE1]).fetch = .ok 0x00E1 ∧ (start.storeBytes 0x200 [0x50, 0x01]).fetch = .ok 0x5001 ∧
    (start.storeBytes 0x200 [0x80, 0x0F]).fetch = .ok 0x800F ∧ (start.storeBytes 0x200 [0x9F, 0xFF]).fetch = .ok 0x9FFF ∧
    (start.storeBytes 0x200 [0xE0, 0x9F]).fetch = .ok 0xE09F ∧ (start.storeBytes 0x200 [0xF0, 0x66]).fetch = .ok 0xF066 := by
  decide

/-- ResetMeetsTheInvariants: the last `ENTRY` of its clause -/
theorem witness_entry : (0x10FE : Word).toNat ≤ 0x10FE := by decide

/-- ConstructTakesOnlyEightyByteFonts: a length of each clause -/
theorem witness_font_lengths :
    (List.replicate 79 (0 : Byte)).length ≠ 80 ∧ (List.replicate 81 (0 : Byte)).length ≠ 80 ∧
    (List.replicate 80 (0 : Byte)).length = 80 := by decide

/-- StepRunsTheDecodedInstruction: the core's move comes next, the instruction at the last address that can be fetched -/
theorem witness_step :
    let s := { (start.setPc 0xFFE).withFetchWord 16 0x6001 with agenda := [.proceed quiet] }
    s.core = .ready ∧ s.pc.toNat + 1 < memSize ∧ s.agenda = .proceed quiet :: [] ∧
    s.nextMove = (.proceed quiet, { s with agenda := [] }) ∧
    decode (wordOfBytes (s.readByte s.pc.toNat) (s.readByte (s.pc.toNat + 1))) = .ok (.ldVxKk 0 1) := by decide

/-- HostMovesInterleaveFreely: a choice of each kind, admitted and not, at the edge of memory and during the key wait -/
theorem witness_interleaving :
    ({ start with agenda := [.tick] } : State).agenda = .tick :: [] ∧ start.agenda = [] ∧
    ({ start with core := .waitKey 4 } : State).admits .tick = true ∧
    start.admits (.load [0xAA, 0xBB] (some 0xFFE)) = true ∧ start.admits (.load [0xAA, 0xBB] (some 0xFFF)) = false ∧
    ({ start with started := true } : State).admits (.load [] none) = false ∧ start.admits .noKey = false := by decide

/-- FetchIsBigEndianAndBounded: the last address that can be fetched and the first two that cannot -/
theorem witness_fetch :
    (0xFFE : Word).toNat + 1 < memSize ∧ memSize ≤ (0xFFF : Word).toNat + 1 ∧ memSize ≤ (0x1000 : Word).toNat + 1 := by
  decide

/-- A state that has failed, as L1.8 leaves it. -/
def failed : State := { start with core := .failed (.decodeFailure 0x5001 0x200) }

/-- FailureIsFinal: the core's move and the host's -/
theorem witness_failed :
    let s : State := { failed with agenda := [.proceed quiet] }
    s.core = .failed (.decodeFailure 0x5001 0x200) ∧ s.agenda = .proceed quiet :: [] ∧
    s.nextMove = (.proceed quiet, failed) ∧
    (stateOf (step { failed with agenda := [.tick] })).map (·.core) = some failed.core := by decide

/-- FailingStepChangesOnlyCore: a step of the reset state fails (G8) -/
theorem witness_failing_step : start.core = .ready ∧
    runInstruction start = .next { start with core := .failed (.decodeFailure 0 0x200) } := ⟨by decide, rfl⟩

/-- EachInstructionRaisesItsOwnFailure: every kind an instruction raises, from a state that is ready -/
theorem witness_each_failure :
    done .ret start (·.core) = some (.failed (.boundsFailure .stackPop 0x200 0)) ∧
    done (.callAddr 0) { start with sd := 16 } (·.core) = some (.failed (.boundsFailure .stackPush 0x200 16)) ∧
    done (.drwVxVyN 0 0 1) (start.setIndex 0x1000) (·.core) = some (.failed (.boundsFailure .memRead 0x200 0x1000)) ∧
    done (.ldVxMem 0) (start.setIndex 0x1000) (·.core) = some (.failed (.boundsFailure .memRead 0x200 0x1000)) ∧
    done (.bcdVx 0) (start.setIndex 0xFFE) (·.core) = some (.failed (.boundsFailure .memWrite 0x200 0x1000)) ∧
    done (.ldMemVx 1) (start.setIndex 0xFFF) (·.core) = some (.failed (.boundsFailure .memWrite 0x200 0x1000)) ∧
    done (.sknpVx 0) (start.setV 0 0x10) (·.core) = some (.failed (.boundsFailure .keyRange 0x200 0x10)) ∧
    done (.addIVx 0) ((start.setV 0 1).setIndex 0xFFFF) (·.core) =
      some (.failed (.boundsFailure .indexOverflow 0x200 0x10000)) := by decide

/-- A state with every invariant that is about to store, draw or call: all three step to a next state. -/
def busy : State := { (start.setIndex 0x300).writeByte 0x300 0xFF with sd := 1, stk := start.stk.set 0 0x1000 }

theorem busy_pcOk : busy.pcOk := ⟨by decide, by decide, by intro x h; cases h⟩

/-- StepKeepsMemoryCanonical, StepKeepsPixelsInTheGrid, StepKeepsPcInRange, StepKeepsParameters -/
theorem witness_invariants :
    (busy.withFetchWord 16 0xF555).memOk = true ∧ after busy 0xF555 (·.memOk) = some true ∧
    (busy.withFetchWord 16 0xD005).fbOk = true ∧ after busy 0xD005 (·.fbOk) = some true ∧
    busy.pcOk ∧ after busy 0x2FFF (·.sd) = some 2 :=
  ⟨by decide, by decide, by decide, by decide, busy_pcOk, by decide⟩

/-- OnlyNamedInstructionsWriteEachPart: each part changes somewhere -/
theorem witness_parts_written :
    done (.ldIAddr 1) start (·.index) = some 1 ∧ done (.ldDtVx 0) (start.setV 0 1) (·.dt) = some 1 ∧
    done (.ldStVx 0) (start.setV 0 1) (·.st) = some 1 ∧ done (.callAddr 0) start (·.sd) = some 1 ∧
    done .cls start (·.fb.dirty) = some true ∧ done (.bcdVx 0) ((start.setV 0 5).setIndex 0) (·.readByte 2) = some 5 := by
  decide

/-- RegistersWrittenAreThoseOfTheAccessTable: `ADD V1, kk` does not write `VF` -/
theorem witness_unwritten : Instr.writesReg (.addVxKk 1 0xFF) 0xF = false ∧
    done (.addVxKk 1 0xFF) start (·.getVF) = some 0 := by decide

/-- UnreadRegistersDoNotMatter: a register neither read nor written, and one written unread -/
theorem witness_unread :
    Instr.readsReg start.params (.addVxVy 1 2) 3 = false ∧ Instr.readsReg start.params (.addVxVy 1 2) 0xF = false ∧
    Instr.readsReg start.params (.shrVxVy 1 2) 2 = false := by decide

/-- FlagIsZeroOrOne -/
theorem witness_flag : Instr.writesFlag (.subVxVy 0 0) = true ∧ start.core = .ready ∧
    done (.subVxVy 0 0) start (fun t => (t.core, t.getVF)) = some (.ready, 1) := by decide

/-- DirtyFlagIsSetOnWritesAndClearedBySnapshot: a sprite that ends at the last byte, and a snapshot that clears -/
theorem witness_dirty :
    (1 : Nibble) ≠ 0 ∧ (start.setIndex 0xFFF).index.toNat + (1 : Nibble).toNat ≤ memSize ∧
    (stateOf (step { start with fb := ⟨[], true⟩, agenda := [.snapshot] })).map (·.fb.dirty) = some false := by decide

/-- TickCountsEachTimerDown, SnapshotReturnsTheGridAndClearsDirty: the moves and both geometries -/
theorem witness_host_moves :
    ({ start with agenda := [.tick] } : State).nextMove = (.tick, start) ∧
    ({ start with agenda := [.snapshot] } : State).nextMove = (.snapshot, start) ∧
    ({ start with agenda := [.isDirty] } : State).nextMove = (.isDirty, start) ∧
    ({ start with agenda := [.dimensions] } : State).nextMove = (.dimensions, start) ∧
    start.params.geom = .standard ∧ ({ start.params with geom := .extended } : Params).geom = .extended ∧
    31 < start.dimensions.2 ∧ 63 < start.dimensions.1 := by decide

/-- LoadCopiesVerbatimOrNothing: an image that ends at the last byte, one byte more, and none -/
theorem witness_load :
    start.started = false ∧ 0xFFE + [(0xAA : Byte), 0xBB].length ≤ memSize ∧
    memSize < 0xFFE + [(0xAA : Byte), 0xBB, 0xCC].length ∧ stateOf (start.load [] none) = some start := by decide

/-- LoadAfterTheFirstStepIsRefused: a marked state that steps, and a ready state whose next move is the core's -/
theorem witness_started :
    (stateOf (step { start with started := true, agenda := [.tick] })).map (·.started) = some true ∧
    start.core = .ready ∧ ({ start with agenda := [.proceed quiet] } : State).nextMove.1 = .proceed quiet ∧
    after start 0x00E0 (·.started) = some true := by decide

/-- The wait of E13, with one move to come. -/
def waiting (m : HostMove) : State := { start with core := .waitKey 4, dt := 3, agenda := [m] }

/-- KeyWaitEndsOnlyWithAKey: the wait under each move -/
theorem witness_key_wait :
    (waiting .tick).core = .waitKey 4 ∧ (waiting (.proceed quiet)).nextMove.1 = .proceed quiet ∧ quiet.key = none ∧
    (waiting (.proceed { quiet with key := some 0xF })).nextMove.1 = .proceed { quiet with key := some 0xF } ∧
    (waiting .tick).nextMove.1 = .tick ∧ (waiting .noKey).nextMove.1 = .noKey ∧
    (stateOf (step (waiting .tick))).map (fun t => (t.dt, t.core)) = some (2, .waitKey 4) := by decide

/-- E13: the key ends the wait -/
theorem test_key_wait_ends :
    (stateOf (step (waiting (.proceed { quiet with key := some 7 })))).map (fun t => (t.getV 4, t.pc, t.core)) =
      some (7, 0x202, .ready) := by decide

/-- RetPopsTheReturnAddress, CallPushesTheNextAddress: the edges of the stack -/
theorem witness_stack :
    0 < (1 : Fin 17).val ∧ start.sd = 0 ∧ ({ start with sd := 15 } : State).sd.val < 16 ∧
    ({ start with sd := 16 } : State).sd = 16 := by decide

/-- NestedCallsReturnInOrder: sixteen calls from an empty stack -/
theorem witness_nested_calls : start.sd.val + (List.replicate 16 (0x206 : Addr)).length ≤ 16 := by decide

/-- AddRegistersWritesSumAndCarry, SubtractionsWriteDifferenceAndNoBorrow, ShiftsMoveOneBitIntoTheFlag -/
theorem witness_not_flag_register : (0xE : Reg) ≠ regF := by decide

/-- IndexAddIsExactOrFails: the last sum that fits and the first that does not -/
theorem witness_index_sum :
    ((start.setIndex 0xFFFE).setV 2 1).index.toNat + (((start.setIndex 0xFFFE).setV 2 1).getV 2).toNat ≤ 0xFFFF ∧
    0xFFFF < ((start.setIndex 0xFFFF).setV 2 1).index.toNat + (((start.setIndex 0xFFFF).setV 2 1).getV 2).toNat := by
  decide

/-- BcdStoresThreeDigits, StoreRegistersUpToX, LoadRegistersUpToX: the last transfer that fits, the first that does not -/
theorem witness_transfers :
    (start.setIndex 0xFFD).index.toNat + 2 < memSize ∧ memSize ≤ (start.setIndex 0xFFE).index.toNat + 2 ∧
    (start.setIndex 0xFF0).index.toNat + (0xF : Reg).toNat < memSize ∧
    memSize ≤ (start.setIndex 0xFF1).index.toNat + (0xF : Reg).toNat := by decide

/-- StoredBytesAreFetchedNext: P7's store, placed so that the next fetch reads it -/
theorem witness_stored_word :
    let s := ((start.setV 0 0x12).setV 1 0x0A).setIndex 0x202
    (0 : Reg).toNat < (1 : Reg).toNat ∧ s.core = .ready ∧
    done (.ldMemVx 1) s (fun t => (t.core, t.pc.toNat)) = some (s.core, s.index.toNat + (0 : Reg).toNat) := by decide

/-- DrwXorsTheSpriteOnce, DrawingTwiceErases: no row, a sprite that ends at the last byte, and one past it -/
theorem witness_drw :
    (start.setIndex 0xFFF).index.toNat + (1 : Nibble).toNat - 1 < memSize ∧ (1 : Nibble) ≠ 0 ∧
    memSize ≤ (start.setIndex 0x1000).index.toNat + (1 : Nibble).toNat - 1 ∧ (1 : Reg) ≠ regF ∧ (2 : Reg) ≠ regF ∧
    (start.setIndex 0xFFF).index.toNat + (1 : Nibble).toNat ≤ memSize ∧ start.fb.lit = [] := by decide

/-- KeySkipsFollowThePoll: the last key and the first number past it -/
theorem witness_key_number :
    ((start.setV 0 0xF).getV 0).toNat ≤ 0xF ∧ 0xF < ((start.setV 0 0x10).getV 0).toNat := by decide

/-- KeyWaitWritesTheKeyOrSuspends -/
theorem witness_key_answer :
    start.core = .ready ∧ ({ start with input := { quiet with key := some 0xF } } : State).input.key = some 0xF ∧
    start.input.key = none ∧ ({ start with core := .waitKey 0xF } : State).core = .waitKey 0xF ∧
    ({ quiet with key := some 0 } : StepInput).key = some 0 := by decide

/-- EndedStatesAreFixedPoints: a failure, and the jump to itself (F12) -/
theorem witness_ended : failed.ended ∧ ((start.setPc 0xFFE).withFetchWord 16 0x1FFE).ended :=
  ⟨.inl ⟨_, rfl⟩, .inr ⟨by decide, by decide, by decide⟩⟩

end Sys2Proof.Tests
end

/-! SUPPORT. The framebuffer as one field: an update that sets it, what commutes with it, and which instructions touch
it (10_state.md R36, R37). -/

namespace Sys2Proof

/-- The instruction is one of the two of 44_display.md. -/
def Instr.isDisplay : Instr → Bool
  | .cls => true
  | .drwVxVyN _ _ _ => true
  | _ => false

theorem Instr.isDisplay_cases (i : Instr) :
    i = .cls ∨ (∃ x y n, i = .drwVxVyN x y n) ∨ i.isDisplay = false := by
  cases i
  case cls => exact .inl rfl
  case drwVxVyN x y n => exact .inr (.inl ⟨x, y, n, rfl⟩)
  all_goals exact .inr (.inr rfl)

end Sys2Proof

namespace Sys2Proof.Machine

/-! ## An update that an instruction commutes with -/

/-- Where an update `g` commutes with the effects of an instruction that checks, and with a failure, it commutes with
the end of the instruction (40_sequencer.md R84). -/
theorem State.finish_commutes (g : State → State) (s : State) {done done' : Except Report State}
    (hraise : ∀ report, (g s).raise report = g (s.raise report)) (hdone : done' = done.map g) :
    ∃ t, s.finish done = .next t ∧ (g s).finish done' = .next (g t) := by
  subst hdone
  cases done with
  | ok t => exact ⟨t, rfl, rfl⟩
  | error report => exact ⟨s.raise report, rfl, congrArg Host.Outcome.next (hraise report)⟩

/-- The same for an instruction whose check has the same answer before and after the update. -/
theorem State.finish_map_commutes {α : Type} (g : State → State) (s : State) (check : Except Report α)
    {effects effects' : α → State} (hraise : ∀ report, (g s).raise report = g (s.raise report))
    (heffects : ∀ a, effects' a = g (effects a)) :
    ∃ t, s.finish (check.map effects) = .next t ∧ (g s).finish (check.map effects') = .next (g t) := by
  refine s.finish_commutes g hraise ?_
  cases check with
  | ok a => exact congrArg Except.ok (heffects a)
  | error report => rfl

/-! ## Setting the framebuffer -/

/-- The state with another framebuffer. -/
def State.withFb (s : State) (fb : Framebuffer) : State := { s with fb := fb }

/-- The framebuffer with another `DIRTY`. -/
def Framebuffer.withDirty (fb : Framebuffer) (d : Bool) : Framebuffer := { fb with dirty := d }

@[simp] theorem State.withFb_pc (s : State) (fb : Framebuffer) : (s.withFb fb).pc = s.pc := rfl

@[simp] theorem State.withFb_self (s : State) : s.withFb s.fb = s := rfl

@[simp] theorem Framebuffer.withDirty_isLit (fb : Framebuffer) (d : Bool) (p : Pixel) :
    (fb.withDirty d).isLit p = fb.isLit p := rfl

theorem Framebuffer.withDirty_self (fb : Framebuffer) : fb.withDirty fb.dirty = fb := rfl

theorem State.withFb_storeBytes (s : State) (fb : Framebuffer) (a : Nat) (bytes : List Byte) :
    (s.withFb fb).storeBytes a bytes = (s.storeBytes a bytes).withFb fb := by
  induction bytes generalizing s a with
  | nil => rfl
  | cons b rest ih => exact ih (s.writeByte a b) (a + 1)

theorem State.withFb_awaitKey (s : State) (fb : Framebuffer) (x : Reg) :
    (s.withFb fb).awaitKey x = (s.awaitKey x).withFb fb := by
  cases h : s.input.key with
  | some k => rw [State.awaitKey_some s x h, State.awaitKey_some (s.withFb fb) x h]; rfl
  | none => rw [State.awaitKey_none s x h, State.awaitKey_none (s.withFb fb) x h]; rfl

theorem State.withFb_push (s : State) (fb : Framebuffer) (r : Word) :
    (s.withFb fb).push r = (s.push r).map (·.withFb fb) := by
  by_cases h : s.sd.val < stackCap
  · rw [State.push_ok s r h, State.push_ok (s.withFb fb) r h]; rfl
  · rw [State.push_error s r h, State.push_error (s.withFb fb) r h]; rfl

theorem State.withFb_pop (s : State) (fb : Framebuffer) :
    (s.withFb fb).pop = s.pop.map fun popped => (popped.1, popped.2.withFb fb) := by
  by_cases h : 0 < s.sd.val
  · rw [State.pop_ok s h, State.pop_ok (s.withFb fb) h]; rfl
  · rw [State.pop_error s h, State.pop_error (s.withFb fb) h]; rfl

/-! ## The instructions that leave the framebuffer alone -/

theorem execRet_withFb (s : State) (fb : Framebuffer) :
    ∃ t, execRet s = .next t ∧ execRet (s.withFb fb) = .next (t.withFb fb) := by
  refine s.finish_commutes (·.withFb fb) (fun _ => rfl) ?_
  rw [State.withFb_pop]
  cases s.pop <;> rfl

theorem execCallAddr_withFb (nnn : Addr) (s : State) (fb : Framebuffer) :
    ∃ t, execCallAddr nnn s = .next t ∧ execCallAddr nnn (s.withFb fb) = .next (t.withFb fb) := by
  refine s.finish_commutes (·.withFb fb) (fun _ => rfl) ?_
  rw [State.withFb_push, State.withFb_pc]
  cases s.push (s.pc + 2) <;> rfl

/-- Every instruction but `CLS` and `DRW` neither reads nor writes the framebuffer: with another one there it does the
same, and leaves that one (40_sequencer.md R83, 10_state.md R37). -/
theorem exec_withFb {i : Instr} (hi : i.isDisplay = false) (s : State) (fb : Framebuffer) :
    ∃ t, exec i s = .next t ∧ exec i (s.withFb fb) = .next (t.withFb fb) := by
  cases i
  case cls => cases hi
  case drwVxVyN => cases hi
  case ret => exact execRet_withFb s fb
  case callAddr nnn => exact execCallAddr_withFb nnn s fb
  case ldVxK x => exact ⟨s.awaitKey x, rfl, congrArg Host.Outcome.next (s.withFb_awaitKey fb x)⟩
  case skpVx x => exact s.finish_map_commutes (·.withFb fb) _ (fun _ => rfl) fun _ => rfl
  case sknpVx x => exact s.finish_map_commutes (·.withFb fb) _ (fun _ => rfl) fun _ => rfl
  case addIVx x => exact s.finish_map_commutes (·.withFb fb) _ (fun _ => rfl) fun _ => rfl
  case ldVxMem x => exact s.finish_map_commutes (·.withFb fb) _ (fun _ => rfl) fun _ => rfl
  case bcdVx x =>
    exact s.finish_map_commutes (·.withFb fb) _ (fun _ => rfl) fun _ =>
      congrArg State.advance (s.withFb_storeBytes fb s.index.toNat (decimalDigits (s.getV x)))
  case ldMemVx x =>
    exact s.finish_map_commutes (·.withFb fb) _ (fun _ => rfl) fun _ =>
      congrArg State.advance (s.withFb_storeBytes fb s.index.toNat (s.regsUpTo x))
  -- the rest check nothing: each is one chain of updates of other fields
  all_goals exact ⟨_, rfl, rfl⟩

/-- Every instruction but `CLS` and `DRW` keeps the framebuffer. -/
theorem exec_keeps_fb {i : Instr} {s t : State} (hi : i.isDisplay = false) (h : exec i s = .next t) :
    t.fb = s.fb := by
  obtain ⟨u, hu, hu'⟩ := exec_withFb hi s s.fb
  rw [State.withFb_self, h] at hu'
  cases hu'
  rfl

/-! ## The display instructions -/

/-- The sprite's bytes are inside memory: `DRW` draws its rows (44_display.md R127). -/
theorem exec_drwVxVyN_ok {s : State} {x y : Reg} {n : Nibble} (h : s.checkSpan .memRead n.toNat = .ok ()) :
    exec (.drwVxVyN x y n) s = .next (((s.withFb (s.drawn x y n).1).setVF (s.drawn x y n).2).advance) := by
  simp only [exec, execDrwVxVyN, h, except_map_ok, State.finish_ok, State.withFb]

/-- They are not: `DRW` only reports (44_display.md R127, 60_exceptions.md R141). -/
theorem exec_drwVxVyN_error {s : State} {x y : Reg} {n : Nibble} {report : Report}
    (h : s.checkSpan .memRead n.toNat = .error report) :
    exec (.drwVxVyN x y n) s = .next (s.raise report) := by
  simp only [exec, execDrwVxVyN, h, except_map_error, State.finish_error]

/-! ## Drawing does not read `DIRTY` -/

theorem Framebuffer.xorPixel_withDirty (fb : Framebuffer) (d : Bool) (p : Pixel) (bit : Bool) :
    (fb.withDirty d).xorPixel p bit = (fb.xorPixel p bit).withDirty d := by
  cases bit <;> rfl

theorem Framebuffer.drawBit_foldl_withDirty (g : Geom) (byte : Byte) (cx cy : Nat) (d : Bool) (is : List Nat)
    (fb : Framebuffer) (collided : Bool) :
    is.foldl (Framebuffer.drawBit g byte cx cy) (fb.withDirty d, collided) =
      ((is.foldl (Framebuffer.drawBit g byte cx cy) (fb, collided)).1.withDirty d,
        (is.foldl (Framebuffer.drawBit g byte cx cy) (fb, collided)).2) := by
  induction is generalizing fb collided with
  | nil => rfl
  | cons i rest ih =>
    simp only [List.foldl_cons, Framebuffer.drawBit, Framebuffer.xorPixel_withDirty, Framebuffer.withDirty_isLit]
    exact ih _ _

/-- A row drawn is the same whatever `DIRTY` was, which it sets (44_display.md R125). -/
theorem Framebuffer.drawRow_withDirty (g : Geom) (fb : Framebuffer) (d : Bool) (byte : Byte) (cx cy : Nat) :
    (fb.withDirty d).drawRow g byte cx cy = fb.drawRow g byte cx cy := by
  simp only [Framebuffer.drawRow, Framebuffer.drawBit_foldl_withDirty]
  rfl

/-- A sprite drawn is the same but for `DIRTY`, which differs after only where no row was drawn (44_display.md R127). -/
theorem Framebuffer.drawSprite_withDirty (fb : Framebuffer) (g : Geom) (d : Bool) (cx cy : Nat) (bytes : List Byte) :
    ∃ d', (fb.withDirty d).drawSprite g cx cy bytes =
      ((fb.drawSprite g cx cy bytes).1.withDirty d', (fb.drawSprite g cx cy bytes).2) := by
  cases bytes with
  | nil => exact ⟨d, rfl⟩
  | cons b rest =>
    refine ⟨(fb.drawSprite g cx cy (b :: rest)).1.dirty, ?_⟩
    simp only [Framebuffer.withDirty_self, Framebuffer.drawSprite, Framebuffer.drawRow_withDirty]

theorem State.drawn_withDirty (s : State) (d : Bool) (x y : Reg) (n : Nibble) :
    ∃ d', (s.withFb (s.fb.withDirty d)).drawn x y n = ((s.drawn x y n).1.withDirty d', (s.drawn x y n).2) :=
  s.fb.drawSprite_withDirty s.params.geom d (s.getV x).toNat (s.getV y).toNat
    (s.loadBytes s.index.toNat n.toNat)

/-- With another `DIRTY` beforehand an instruction goes to the same state but for `DIRTY` (10_state.md R37). -/
theorem exec_withDirty (i : Instr) (s : State) (d : Bool) :
    ∃ t d', exec i s = .next t ∧ exec i (s.withFb (s.fb.withDirty d)) = .next (t.withFb (t.fb.withDirty d')) := by
  rcases i.isDisplay_cases with rfl | ⟨x, y, n, rfl⟩ | hi
  · exact ⟨_, true, rfl, rfl⟩
  · cases hc : s.checkSpan .memRead n.toNat with
    | error report =>
      exact ⟨_, d, exec_drwVxVyN_error hc, exec_drwVxVyN_error (s := s.withFb (s.fb.withDirty d)) hc⟩
    | ok _ =>
      obtain ⟨d', hd⟩ := s.drawn_withDirty d x y n
      refine ⟨_, d', exec_drwVxVyN_ok hc, ?_⟩
      rw [exec_drwVxVyN_ok (s := s.withFb (s.fb.withDirty d)) hc, hd]
      rfl
  · obtain ⟨t, ht, hu⟩ := exec_withFb hi s (s.fb.withDirty d)
    exact ⟨t, d, ht, by rw [hu, exec_keeps_fb hi ht]⟩

/-! ## Who clears `DIRTY` -/

/-- A sprite drawn leaves `DIRTY` as it was, or sets it (10_state.md R37). -/
theorem State.dirty_drawn (s : State) (x y : Reg) (n : Nibble) :
    (s.drawn x y n).1.dirty = (s.fb.dirty || decide (n ≠ 0)) := by
  have hempty : (s.loadBytes s.index.toNat n.toNat).isEmpty = decide (n = 0) := by
    rw [Bool.eq_iff_iff]
    simp [State.loadBytes, ← BitVec.toNat_inj]
  rw [State.drawn, Framebuffer.dirty_drawSprite, hempty, decide_not]

/-- No instruction clears `DIRTY`. -/
theorem exec_keeps_dirty {i : Instr} {s t : State} (h : exec i s = .next t) (hs : s.fb.dirty = true) :
    t.fb.dirty = true := by
  rcases i.isDisplay_cases with rfl | ⟨x, y, n, rfl⟩ | hi
  · cases h
    rfl
  · cases hc : s.checkSpan .memRead n.toNat with
    | error report =>
      rw [exec_drwVxVyN_error hc] at h
      cases h
      exact hs
    | ok _ =>
      rw [exec_drwVxVyN_ok hc] at h
      cases h
      exact (s.dirty_drawn x y n).trans (by rw [hs, Bool.true_or])
  · rw [exec_keeps_fb hi h, hs]

/-- The key wait keeps the framebuffer (45_timers_keys.md R132). -/
@[simp] theorem State.awaitKey_fb (s : State) (x : Reg) : (s.awaitKey x).fb = s.fb :=
  exec_keeps_fb (i := .ldVxK x) rfl rfl

/-- No move of the core clears `DIRTY`. -/
theorem coreMove_keeps_dirty {s t : State} {input : StepInput} (h : coreMove s input = .next t)
    (hs : s.fb.dirty = true) : t.fb.dirty = true := by
  rcases coreMove_cases h with ⟨_, rfl⟩ | ⟨x, _, rfl⟩ | ⟨_, h⟩
  · exact hs
  · simpa using hs
  · rcases runInstruction_cases h with ⟨_, _, rfl⟩ | ⟨_, _, _, _, rfl⟩ | ⟨_, _, _, _, h⟩
    · exact hs
    · exact hs
    · exact exec_keeps_dirty h hs

/-- Of the host's moves only `SNAPSHOT` clears `DIRTY` (10_state.md R37, R45). -/
theorem hostMove_keeps_dirty {m : HostMove} {s t : State} (hm : m ≠ .snapshot) (h : hostMove m s = .next t)
    (hs : s.fb.dirty = true) : t.fb.dirty = true := by
  rcases hostMove_cases h with ⟨_, _, h⟩ | ⟨_, rfl⟩ | ⟨rfl, _⟩ | ⟨_, rfl⟩ | ⟨_, _, _, _, _, rfl⟩
  · exact coreMove_keeps_dirty h hs
  · exact hs
  · exact absurd rfl hm
  · exact hs
  · simpa using hs

/-- Choosing the next move keeps the framebuffer (40_sequencer.md R88). -/
@[simp] theorem State.nextMove_fb (s : State) : s.nextMove.2.fb = s.fb := by
  obtain ⟨_, _, h⟩ := s.nextMove_state
  rw [h]

/-- Settles O25: only `CLS` and `DRW` touch the framebuffer, both only ever set `DIRTY`, and drawing does not read it. -/
theorem dirtyFlagIsSetOnWritesAndClearedBySnapshot : Obligations.DirtyFlagIsSetOnWritesAndClearedBySnapshot := by
  unfold Obligations.DirtyFlagIsSetOnWritesAndClearedBySnapshot
  refine ⟨?_, Framebuffer.dirty_drawRow, ?_, ?_, fun _ => rfl, ?_⟩
  · intro s t h
    cases h
    rfl
  · intro x y n s hn hspan
    exact ⟨_, exec_drwVxVyN_ok (s.checkSpan_ok .memRead n.toNat (.inr hspan)),
      (s.dirty_drawn x y n).trans (by rw [decide_eq_true hn, Bool.or_true])⟩
  · intro s t h hs ht
    by_contra hm
    have := hostMove_keeps_dirty hm (step_eq s ▸ h) (s.nextMove_fb ▸ hs)
    simp [ht] at this
  · intro i s d
    obtain ⟨t, d', ht, hu⟩ := exec_withDirty i s d
    exact ⟨t, t.withFb (t.fb.withDirty d'), ht, hu, rfl⟩

/-! ## Construction and the host's reads -/

/-- After construction every general register holds 0 (10_state.md R18). -/
@[simp] theorem State.construct_getV (p : Params) (r : Reg) : (State.construct p).getV r = 0 := by
  simp [State.construct, State.getV]

/-- Settles O7: from the registers of a constructed state. -/
theorem constructionClearsRegistersAndSetsPc : Obligations.ConstructionClearsRegistersAndSetsPc := by
  unfold Obligations.ConstructionClearsRegistersAndSetsPc
  exact fun p => ⟨State.construct_getV p, rfl⟩

/-- The grid has `H` rows (10_state.md R36). -/
@[simp] theorem Framebuffer.grid_length (g : Geom) (fb : Framebuffer) : (fb.grid g).length = g.height := by
  simp [Framebuffer.grid]

/-- Row `py` of the grid holds the `W` pixels of that row (44_display.md R123). -/
theorem Framebuffer.grid_row (g : Geom) (fb : Framebuffer) {py : Nat} (h : py < g.height) :
    (fb.grid g)[py]? = some ((List.range g.width).map fun px => fb.isLit ⟨px, py⟩) := by
  simp [Framebuffer.grid, h]

/-- A step whose move comes next in a known state. -/
theorem step_of_nextMove {s s₁ : State} {m : HostMove} (h : s.nextMove = (m, s₁)) : step s = hostMove m s₁ := by
  rw [step_eq, h]

/-- Settles O28: the grid row by row, and the three moves by their meanings. -/
theorem snapshotReturnsTheGridAndClearsDirty : Obligations.SnapshotReturnsTheGridAndClearsDirty := by
  unfold Obligations.SnapshotReturnsTheGridAndClearsDirty
  intro s
  refine ⟨?_, ?_, s.fb.grid_length s.params.geom, ?_, rfl, fun _ h => step_of_nextMove h, ?_⟩
  · intro hg
    simp [State.dimensions, hg, Geom.width, Geom.height]
  · intro hg
    simp [State.dimensions, hg, Geom.width, Geom.height]
  · intro py hpy
    refine ⟨_, s.fb.grid_row s.params.geom hpy, by simp [State.dimensions], fun px hpx => ?_⟩
    have hpx : px < s.params.geom.width := hpx
    simp [hpx]
  · rintro s₁ (h | h)
    · exact step_of_nextMove h
    · exact step_of_nextMove h

end Sys2Proof.Machine

/-! SUPPORT. The fetch and the host's `LOAD`: the value of the fetched word, the outcomes of a load, and the frame of a
transfer to memory (20_memory.md R50, R51, R52, R60). -/

namespace Sys2Proof

/-- A word of two bytes, the first the high one (20_memory.md R50). -/
theorem toNat_wordOfBytes (first second : Byte) :
    (wordOfBytes first second).toNat = 256 * first.toNat + second.toNat := by
  rw [wordOfBytes, BitVec.toNat_append, ← Nat.shiftLeft_add_eq_or_of_lt second.isLt, Nat.shiftLeft_eq, Nat.mul_comm]

end Sys2Proof

namespace Sys2Proof.Machine

/-! ## The fetch -/

/-- Where the fetch fails, its report is all the step does (40_sequencer.md R79, 60_exceptions.md R141). -/
theorem runInstruction_of_fetch_error {s : State} {report : Report} (h : s.fetch = .error report) :
    runInstruction s = .next (s.raise report) := by
  rw [runInstruction, h]

/-- Settles O12: on each side of the end of memory, by the value of a word of two bytes and by the fetch's report. -/
theorem fetchIsBigEndianAndBounded : Obligations.FetchIsBigEndianAndBounded := by
  unfold Obligations.FetchIsBigEndianAndBounded
  exact fun s => ⟨fun h => ⟨_, s.fetch_ok h, toNat_wordOfBytes _ _⟩,
    fun h => runInstruction_of_fetch_error (s.fetch_error h)⟩

/-! ## Bytes stored -/

/-- Byte `k` of a transfer is read at `a + k` (20_memory.md R51). -/
theorem State.readByte_storeBytes_add (s : State) (a : Nat) (bytes : List Byte) {k : Nat} (h : k < bytes.length) :
    (s.storeBytes a bytes).readByte (a + k) = bytes[k] := by
  simp [State.readByte_storeBytes, h]

/-- A transfer to memory changes the bytes of its span and nothing else. -/
theorem State.storeBytes_changesOnly (s : State) (a : Nat) (bytes : List Byte) :
    ChangesOnly noReg [] (span a bytes.length) s (s.storeBytes a bytes) where
  otherRegs _ _ := s.storeBytes_getV a bytes _
  otherParts p _ := by cases p <;> simp [Part.same]
  otherBytes q h := s.readByte_storeBytes_outside a q bytes h
  params := s.storeBytes_params a bytes
  started := s.storeBytes_started a bytes
  input := s.storeBytes_input a bytes
  draws := s.storeBytes_draws a bytes
  agenda := s.storeBytes_agenda a bytes

/-! ## The outcomes of `LOAD` -/

/-- A load that fits stores the bytes (20_memory.md R60). -/
theorem State.load_fits {s : State} {bytes : List Byte} {start : Option Nat} (hs : s.started = false)
    (h : start.getD s.pc.toNat + bytes.length ≤ memSize) :
    s.load bytes start = .next (s.storeBytes (start.getD s.pc.toNat) bytes) := by
  simp [State.load, hs, h]

/-- A load past the end is a load error (20_memory.md R60). -/
theorem State.load_past_end {s : State} {bytes : List Byte} {start : Option Nat} (hs : s.started = false)
    (h : memSize < start.getD s.pc.toNat + bytes.length) :
    s.load bytes start = .fault (.loadPastEnd (start.getD s.pc.toNat) bytes.length) := by
  simp [State.load, hs, Nat.not_le.mpr h]

/-- A load that succeeds comes before the first `STEP`, fits, and has stored the bytes (20_memory.md R60, R61). -/
theorem State.load_next {s t : State} {bytes : List Byte} {start : Option Nat} (h : s.load bytes start = .next t) :
    s.started = false ∧ start.getD s.pc.toNat + bytes.length ≤ memSize ∧
      t = s.storeBytes (start.getD s.pc.toNat) bytes := by
  simpa using hostMove_cases (m := .load bytes start) h

/-- Settles O29: a load that fits is a transfer to memory, one that does not is an error, and no bytes store nothing. -/
theorem loadCopiesVerbatimOrNothing : Obligations.LoadCopiesVerbatimOrNothing := by
  unfold Obligations.LoadCopiesVerbatimOrNothing
  refine ⟨fun s bytes start hs => ⟨fun hfits => ?_, State.load_past_end hs, fun t h => ?_⟩, fun _ _ => rfl⟩
  · exact ⟨_, State.load_fits hs hfits, s.storeBytes_pc _ bytes, fun _ => s.readByte_storeBytes_add _ bytes,
      s.storeBytes_changesOnly _ bytes⟩
  · obtain ⟨_, _, rfl⟩ := State.load_next h
    rfl

end Sys2Proof.Machine

/-! SUPPORT. Which words the decoder refuses: the refusals of each family's selector, then of the whole tree, and the
step that fetches a refused word (30_encoding.md R70, R71, R75). -/

namespace Sys2Proof

/-- A selector tested and not met leaves the refusal to the tests after it. -/
theorem ite_ok_eq_error {c : Prop} [Decidable c] {i : Instr} {r : Except DecodeError Instr} {e : DecodeError} :
    (if c then .ok i else r) = .error e ↔ ¬ c ∧ r = .error e := by
  by_cases h : c <;> simp [h]

/-- A word is determined by its family and its low 12 bits (30_encoding.md R68, format ADDR). -/
theorem eq_formatAddr_iff {w : Word} {op : BitVec 4} {nnn : Addr} :
    w = formatAddr op nnn ↔ opOf w = op ∧ nnnOf w = nnn := by
  refine ⟨?_, ?_⟩
  · rintro rfl
    exact ⟨opOf_formatAddr op nnn, nnnOf_formatAddr op nnn⟩
  · rintro ⟨rfl, rfl⟩
    exact (formatAddr_fields w).symm

section
variable {w : Word} {e : DecodeError}

/-! ## The refusals of each family -/

theorem decode0_eq_error_iff (h : opOf w = 0x0) :
    decode0 w = .error e ↔ (w ≠ 0x00E0 ∧ w ≠ 0x00EE) ∧ .unrecognizedOperation = e := by
  have hsel (nnn : Addr) : w = formatAddr 0x0 nnn ↔ nnnOf w = nnn := by simp [eq_formatAddr_iff, h]
  have hcls : w = 0x00E0 ↔ nnnOf w = 0x0E0 := hsel 0x0E0
  have hret : w = 0x00EE ↔ nnnOf w = 0x0EE := hsel 0x0EE
  simp only [decode0, ite_ok_eq_error, Except.error.injEq, ne_eq, hcls, hret, and_assoc]

theorem decode5_eq_error_iff : decode5 w = .error e ↔ nOf w ≠ 0x0 ∧ .unrecognizedOperation = e := by
  simp only [decode5, ite_ok_eq_error, Except.error.injEq, ne_eq]

theorem decode9_eq_error_iff : decode9 w = .error e ↔ nOf w ≠ 0x0 ∧ .unrecognizedOperation = e := by
  simp only [decode9, ite_ok_eq_error, Except.error.injEq, ne_eq]

/-- The seven values of `n` that family 8 lacks are those that differ from its nine selectors. -/
theorem mem_family8_gaps_iff : ∀ n : Nibble, n ∈ [0x8#4, 0x9#4, 0xA#4, 0xB#4, 0xC#4, 0xD#4, 0xF#4] ↔
    n ∉ [0x0#4, 0x1#4, 0x2#4, 0x3#4, 0x4#4, 0x5#4, 0x6#4, 0x7#4, 0xE#4] := by decide

theorem decode8_eq_error_iff : decode8 w = .error e ↔
    nOf w ∈ [0x8#4, 0x9#4, 0xA#4, 0xB#4, 0xC#4, 0xD#4, 0xF#4] ∧ .unrecognizedOperation = e := by
  rw [mem_family8_gaps_iff]
  simp [decode8, ite_ok_eq_error, and_assoc]

theorem decodeE_eq_error_iff : decodeE w = .error e ↔ kkOf w ∉ [0x9E#8, 0xA1#8] ∧ .unrecognizedOperation = e := by
  simp [decodeE, ite_ok_eq_error, and_assoc]

theorem decodeF_eq_error_iff : decodeF w = .error e ↔
    kkOf w ∉ [0x07#8, 0x0A#8, 0x15#8, 0x18#8, 0x1E#8, 0x29#8, 0x33#8, 0x55#8, 0x65#8] ∧
      .unrecognizedOperation = e := by
  simp [decodeF, ite_ok_eq_error, and_assoc]

/-! ## The refusals of the tree -/

/-- The families with illegal words (30_encoding.md R75). -/
def partialFamilies : List (BitVec 4) := [0x0#4, 0x5#4, 0x8#4, 0x9#4, 0xE#4, 0xF#4]

/-- Each of the ten other families is one instruction, so all its words are legal. -/
theorem decode_ok_of_family (h : opOf w ∉ partialFamilies) : ∃ i, decode w = .ok i := by
  have hop : ∀ op : BitVec 4, op ∉ partialFamilies →
      op ∈ [0x1#4, 0x2#4, 0x3#4, 0x4#4, 0x6#4, 0x7#4, 0xA#4, 0xB#4, 0xC#4, 0xD#4] := by decide
  have hfamily := hop (opOf w) h
  simp only [List.mem_cons, List.not_mem_nil, or_false] at hfamily
  rcases hfamily with h | h | h | h | h | h | h | h | h | h <;> exact ⟨_, by simp only [decode, h]; rfl⟩

/-- The illegal words, as R71 lists them. -/
def IllegalWord (w : Word) : Prop :=
  (opOf w = 0x0 ∧ w ≠ 0x00E0 ∧ w ≠ 0x00EE) ∨
  (opOf w = 0x5 ∧ nOf w ≠ 0x0) ∨
  (opOf w = 0x8 ∧ nOf w ∈ [0x8#4, 0x9#4, 0xA#4, 0xB#4, 0xC#4, 0xD#4, 0xF#4]) ∨
  (opOf w = 0x9 ∧ nOf w ≠ 0x0) ∨
  (opOf w = 0xE ∧ kkOf w ∉ [0x9E#8, 0xA1#8]) ∨
  (opOf w = 0xF ∧ kkOf w ∉ [0x07#8, 0x0A#8, 0x15#8, 0x18#8, 0x1E#8, 0x29#8, 0x33#8, 0x55#8, 0x65#8])

/-- The decoder refuses R71's words and no others, all as an operation its family lacks (30_encoding.md R75). -/
theorem decode_eq_error_iff : decode w = .error e ↔ IllegalWord w ∧ .unrecognizedOperation = e := by
  by_cases h : opOf w ∈ partialFamilies
  · simp only [partialFamilies, List.mem_cons, List.not_mem_nil, or_false] at h
    rcases h with h | h | h | h | h | h
    · simp [decode, IllegalWord, h, decode0_eq_error_iff h]
    · simp [decode, IllegalWord, h, decode5_eq_error_iff]
    · simp [decode, IllegalWord, h, decode8_eq_error_iff]
    · simp [decode, IllegalWord, h, decode9_eq_error_iff]
    · simp [decode, IllegalWord, h, decodeE_eq_error_iff]
    · simp [decode, IllegalWord, h, decodeF_eq_error_iff]
  · obtain ⟨i, hi⟩ := decode_ok_of_family h
    simp only [partialFamilies, List.mem_cons, not_or] at h
    simp [IllegalWord, hi, h]

/-- The illegal words are those that decode to no instruction (30_encoding.md R71). -/
theorem illegalWord_iff_forall_decode_ne_ok : IllegalWord w ↔ ∀ i, decode w ≠ .ok i := by
  refine ⟨fun hw i hi => ?_, fun hno => ?_⟩
  · rw [decode_eq_error_iff.mpr ⟨hw, rfl⟩] at hi
    cases hi
  · cases hd : decode w with
    | ok i => exact absurd hd (hno i)
    | error e => exact (decode_eq_error_iff.mp hd).1

end

end Sys2Proof

namespace Sys2Proof.Machine

/-- Where the decoder refuses the fetched word, the report is all the step does (40_sequencer.md R80,
60_exceptions.md R141). -/
theorem runInstruction_of_decode_error {s : State} {w : Word} {e : DecodeError} (hf : s.fetch = .ok w)
    (hd : decode w = .error e) : runInstruction s = .next (s.raise (.decodeFailure w s.pc)) := by
  simp only [runInstruction, hf, hd]

/-- Settles O6: by the words the decoder refuses, and the step after a refusal. -/
theorem illegalWordsAreRejected : Obligations.IllegalWordsAreRejected := by
  unfold Obligations.IllegalWordsAreRejected
  exact fun w => ⟨illegalWord_iff_forall_decode_ne_ok, fun e h => (decode_eq_error_iff.mp h).2.symm,
    fun s hi hf => runInstruction_of_decode_error hf (decode_eq_error_iff.mpr ⟨hi, rfl⟩)⟩

end Sys2Proof.Machine

/-! SUPPORT. Control transfer (41_control_transfer.md): the frames of an instruction that writes `PC` and of one that
writes the return stack as well, the four skips, the two jumps, the call and the return. -/

namespace Sys2Proof.Machine

/-! ## Frames -/

/-- A state has changed nothing from itself, whatever was allowed to change. -/
theorem ChangesOnly.refl (regs : Reg → Prop) (parts : List Part) (bytes : Nat → Prop) (s : State) :
    ChangesOnly regs parts bytes s s where
  otherRegs _ _ := rfl
  otherParts p _ := by cases p <;> simp [Part.same]
  otherBytes _ _ := rfl
  params := rfl
  started := rfl
  input := rfl
  draws := rfl
  agenda := rfl

section
variable {regs : Reg → Prop} {parts : List Part} {bytes : Nat → Prop} {s t : State}

/-- A write to `PC` is within every frame. -/
theorem ChangesOnly.setPc (h : ChangesOnly regs parts bytes s t) (a : Word) :
    ChangesOnly regs parts bytes s (t.setPc a) :=
  { h with }

/-- A write to the return stack is within every frame that names the stack. -/
theorem ChangesOnly.setStack (h : ChangesOnly regs parts bytes s t) (hp : .stack ∈ parts) (sd : Fin 17)
    (stk : Vector Word 16) : ChangesOnly regs parts bytes s { t with sd := sd, stk := stk } :=
  { h with
    otherParts := fun p hn => by
      have hsame := h.otherParts p hn
      cases p with
      | stack => exact absurd hp hn
      | _ => exact hsame }

end

/-! ## Jumps (R93, R99) -/

@[simp] theorem toNat_addrWord (nnn : Addr) : (addrWord nnn).toNat = nnn.toNat :=
  BitVec.toNat_setWidth_of_le (by decide)

@[simp] theorem toNat_byteWord (b : Byte) : (byteWord b).toNat = b.toNat :=
  BitVec.toNat_setWidth_of_le (by decide)

/-- The sum of a byte and an address never wraps: it is at most `0x10FE` (R99). -/
theorem toNat_byteWord_add_addrWord (b : Byte) (nnn : Addr) :
    (byteWord b + addrWord nnn).toNat = b.toNat + nnn.toNat := by
  have hb := b.isLt
  have hn := nnn.isLt
  rw [BitVec.toNat_add_of_lt (by rw [toNat_byteWord, toNat_addrWord]; omega), toNat_byteWord, toNat_addrWord]

/-- Settles O35: the jump is a write to `PC`. -/
theorem jpGoesToItsAddress : Obligations.JpGoesToItsAddress := by
  unfold Obligations.JpGoesToItsAddress
  exact fun nnn s => ⟨s.setPc (addrWord nnn), rfl, toNat_addrWord nnn, (ChangesOnly.refl _ _ _ s).setPc _⟩

/-- Settles O36: the jump is a write to `PC`, of a sum that cannot wrap. -/
theorem jpV0GoesToTheExactSum : Obligations.JpV0GoesToTheExactSum := by
  unfold Obligations.JpV0GoesToTheExactSum
  exact fun nnn s => ⟨s.setPc (byteWord (s.getV 0) + addrWord nnn), rfl, toNat_byteWord_add_addrWord _ _,
    (ChangesOnly.refl _ _ _ s).setPc _⟩

/-! ## Skips (R95, R96, R97, R98) -/

/-- An instruction that skips on a condition writes `PC`, by the condition, and nothing else (40_sequencer.md R82). -/
theorem exec_of_skipIf {i : Instr} {s : State} {c : Bool} {condition : Prop} [Decidable condition]
    (h : exec i s = .next (s.skipIf c)) (hc : c = true ↔ condition) :
    ∃ t, exec i s = .next t ∧ t.pc = (if condition then s.pc + 4 else s.pc + 2) ∧
      ChangesOnly noReg [] noByte s t :=
  ⟨s.skipIf c, h, by simp only [State.skipIf_pc, hc], (ChangesOnly.refl _ _ _ s).setPc _⟩

/-- Settles O37: both are skips, on equality and on inequality. -/
theorem byteSkipsCompareAndAdvance : Obligations.ByteSkipsCompareAndAdvance := by
  unfold Obligations.ByteSkipsCompareAndAdvance
  exact fun _ _ _ => ⟨exec_of_skipIf rfl beq_iff_eq, exec_of_skipIf rfl bne_iff_ne⟩

/-- Settles O38: both are skips, on equality and on inequality. -/
theorem registerSkipsCompareAndAdvance : Obligations.RegisterSkipsCompareAndAdvance := by
  unfold Obligations.RegisterSkipsCompareAndAdvance
  exact fun _ _ _ => ⟨exec_of_skipIf rfl beq_iff_eq, exec_of_skipIf rfl bne_iff_ne⟩

/-! ## Return and call (R92, R94) -/

/-- RET with a live entry: one entry fewer, and `PC` is the entry popped (R92). -/
theorem exec_ret_live {s : State} (h : 0 < s.sd.val) :
    exec .ret s = .next ({ s with sd := ⟨s.sd.val - 1, by omega⟩ }.setPc s.stk[s.sd.val - 1]) := by
  simp only [exec, execRet, s.pop_ok h, except_map_ok, State.finish_ok]

/-- RET with no live entry only reports (R92). -/
theorem exec_ret_empty {s : State} (h : ¬ 0 < s.sd.val) :
    exec .ret s = .next (s.raise (.boundsFailure .stackPop s.pc s.sd.val)) := by
  simp only [exec, execRet, s.pop_error h, except_map_error, State.finish_error]

/-- CALL with room: the address of the next instruction is the new entry, and `PC` is the target (R94). -/
theorem exec_callAddr_room {s : State} (nnn : Addr) (h : s.sd.val < stackCap) :
    exec (.callAddr nnn) s = .next ({ s with
      stk := s.stk.set s.sd.val (s.pc + 2) h
      sd := ⟨s.sd.val + 1, Nat.succ_lt_succ h⟩ }.setPc (addrWord nnn)) := by
  simp only [exec, execCallAddr, s.push_ok _ h, except_map_ok, State.finish_ok]

/-- CALL with no room only reports (R94). -/
theorem exec_callAddr_full {s : State} (nnn : Addr) (h : ¬ s.sd.val < stackCap) :
    exec (.callAddr nnn) s = .next (s.raise (.boundsFailure .stackPush s.pc s.sd.val)) := by
  simp only [exec, execCallAddr, s.push_error _ h, except_map_error, State.finish_error]

/-- Settles O32: by what RET does with a live entry and with none. -/
theorem retPopsTheReturnAddress : Obligations.RetPopsTheReturnAddress := by
  unfold Obligations.RetPopsTheReturnAddress
  refine fun s => ⟨fun h => ?_, fun h => ?_⟩
  · exact ⟨_, exec_ret_live h, rfl, rfl, rfl, ((ChangesOnly.refl _ _ _ s).setStack (by simp) _ _).setPc _⟩
  · simpa [h, State.raise] using exec_ret_empty (s := s) (by simp [h])

/-- Settles O33: by what CALL does with room and with none; the slot written is the one at `SD`. -/
theorem callPushesTheNextAddress : Obligations.CallPushesTheNextAddress := by
  unfold Obligations.CallPushesTheNextAddress
  refine fun nnn s => ⟨fun h => ?_, fun h => ?_⟩
  · refine ⟨_, exec_callAddr_room nnn h, rfl, rfl, Vector.getElem_set_self _, fun k hk => ?_,
      ((ChangesOnly.refl _ _ _ s).setStack (by simp) _ _).setPc _⟩
    exact Vector.getElem_set_ne h k.isLt hk.symm
  · simpa [h, State.raise] using exec_callAddr_full (s := s) nnn (by simp [h, stackCap])

end Sys2Proof.Machine

/-! SUPPORT. The loads, the 8-bit operations with no flag and the random byte (42_alu.md): one write to a register, then
the sequential advance. -/

namespace Sys2Proof.Machine

/-- A write to a register is within every frame that allows the register. -/
theorem ChangesOnly.setV {regs : Reg → Prop} {parts : List Part} {bytes : Nat → Prop} {s t : State}
    (h : ChangesOnly regs parts bytes s t) {x : Reg} (hx : regs x) (b : Byte) :
    ChangesOnly regs parts bytes s (t.setV x b) :=
  { h with
    otherRegs := fun r hr =>
      have hne : r ≠ x := fun e => hr (e ▸ hx)
      (t.getV_setV_ne hne b).trans (h.otherRegs r hr) }

/-- An instruction that writes one register and advances changes that register and `PC` only: `VF` is written where it is
the register named, and never as a flag (10_state.md R20). -/
theorem exec_of_setV_advance {i : Instr} {s : State} {x : Reg} {b : Byte}
    (h : exec i s = .next (s.setV x b).advance) :
    ∃ t, exec i s = .next t ∧ t.getV x = b ∧ t.pc = s.pc + 2 ∧ ChangesOnly (· = x) [] noByte s t :=
  ⟨(s.setV x b).advance, h, s.getV_setV_self x b, rfl,
    ((ChangesOnly.refl (· = x) _ _ s).setV rfl b).setPc _⟩

/-- Settles O39: both are one register write, of the byte and of the other register. -/
theorem loadsWriteOneRegister : Obligations.LoadsWriteOneRegister := by
  unfold Obligations.LoadsWriteOneRegister
  exact fun _ _ _ _ => ⟨exec_of_setV_advance rfl, exec_of_setV_advance rfl⟩

/-- Settles O40: one register write, of a sum of bytes, whose value is the sum modulo 256. -/
theorem addByteWrapsWithoutFlag : Obligations.AddByteWrapsWithoutFlag := by
  unfold Obligations.AddByteWrapsWithoutFlag
  intro x kk s
  obtain ⟨t, ht, hsum, hframe⟩ := exec_of_setV_advance (i := .addVxKk x kk) (s := s) rfl
  exact ⟨t, ht, hsum ▸ BitVec.toNat_add _ _, hframe⟩

/-- Settles O41: each is one register write, of its bitwise result. -/
theorem logicWritesTheBitwiseResult : Obligations.LogicWritesTheBitwiseResult := by
  unfold Obligations.LogicWritesTheBitwiseResult
  exact fun _ _ _ => ⟨exec_of_setV_advance rfl, exec_of_setV_advance rfl, exec_of_setV_advance rfl⟩

/-- Settles O45: one register write, of the step's random byte under the mask. -/
theorem rndMasksTheRandomByte : Obligations.RndMasksTheRandomByte := by
  unfold Obligations.RndMasksTheRandomByte
  exact fun _ _ _ => exec_of_setV_advance rfl

end Sys2Proof.Machine

/-! SUPPORT. The index loads and BCD (43_index_memory.md): one write to the index register, then the sequential advance;
three digits stored after one check, or the report alone. -/

namespace Sys2Proof.Machine

/-! ## The index loads (R116, R118) -/

/-- A write to the index register is within every frame that names it. -/
theorem ChangesOnly.setIndex {regs : Reg → Prop} {parts : List Part} {bytes : Nat → Prop} {s t : State}
    (h : ChangesOnly regs parts bytes s t) (hp : .index ∈ parts) (a : Word) :
    ChangesOnly regs parts bytes s (t.setIndex a) :=
  { h with
    otherParts := fun p hn => by
      have hsame := h.otherParts p hn
      cases p with
      | index => exact absurd hp hn
      | _ => exact hsame }

/-- An instruction that writes the index register and advances changes that register and `PC` only. -/
theorem exec_of_setIndex_advance {i : Instr} {s : State} {a : Word} {n : Nat}
    (h : exec i s = .next (s.setIndex a).advance) (ha : a.toNat = n) :
    ∃ t, exec i s = .next t ∧ t.index.toNat = n ∧ t.pc = s.pc + 2 ∧ ChangesOnly noReg [.index] noByte s t :=
  ⟨(s.setIndex a).advance, h, ha, rfl, ((ChangesOnly.refl _ [.index] _ s).setIndex (by decide) a).setPc _⟩

/-- Five times a byte is at most 1275, so the glyph's address never wraps (R118). -/
theorem toNat_byteWord_mul_five (b : Byte) : (byteWord b * 5).toNat = b.toNat * 5 := by
  have hlt : (byteWord b).toNat * (5 : Word).toNat < 2 ^ 16 := by
    have hb := b.isLt
    simp only [toNat_byteWord, BitVec.reduceToNat]
    omega
  rw [BitVec.toNat_mul_of_lt hlt, toNat_byteWord]
  rfl

/-- Settles O46: both are one write to the index register, of a zero extension and of a product that cannot wrap. -/
theorem indexLoadsAreExact : Obligations.IndexLoadsAreExact := by
  unfold Obligations.IndexLoadsAreExact
  exact fun nnn x s => ⟨exec_of_setIndex_advance rfl (toNat_addrWord nnn),
    exec_of_setIndex_advance rfl (toNat_byteWord_mul_five (s.getV x))⟩

/-! ## BCD (R119) -/

/-- The three digits fit: BCD stores them and advances (R119). -/
theorem exec_bcdVx_ok {s : State} (x : Reg) (h : s.checkSpan .memWrite 3 = .ok ()) :
    exec (.bcdVx x) s = .next (s.storeBytes s.index.toNat (decimalDigits (s.getV x))).advance := by
  simp only [exec, execBcdVx, h, except_map_ok, State.finish_ok]

/-- They do not fit: BCD only reports (R119, 60_exceptions.md R141). -/
theorem exec_bcdVx_error {s : State} (x : Reg) {report : Report} (h : s.checkSpan .memWrite 3 = .error report) :
    exec (.bcdVx x) s = .next (s.raise report) := by
  simp only [exec, execBcdVx, h, except_map_error, State.finish_error]

/-- The bytes BCD stores, read back each at its own address, are the digits of the value in plain arithmetic (R119). -/
theorem State.readByte_storeBytes_decimalDigits (s : State) (a : Nat) (b : Byte) :
    ((s.storeBytes a (decimalDigits b)).readByte a).toNat = b.toNat / 100 ∧
      ((s.storeBytes a (decimalDigits b)).readByte (a + 1)).toNat = b.toNat / 10 % 10 ∧
      ((s.storeBytes a (decimalDigits b)).readByte (a + 2)).toNat = b.toNat % 10 := by
  have hread {k : Nat} (hk : k < 3) := s.readByte_storeBytes_add a (decimalDigits b) hk
  refine ⟨?_, ?_, ?_⟩
  · exact (congrArg BitVec.toNat (hread (k := 0) (by decide))).trans BitVec.toNat_udiv
  · rw [hread (by decide)]
    simp [decimalDigits]
  · rw [hread (by decide)]
    simp [decimalDigits]

/-- Settles O48: on each side of the end of memory, by the transfer of the three digits and by the check's report. -/
theorem bcdStoresThreeDigits : Obligations.BcdStoresThreeDigits := by
  unfold Obligations.BcdStoresThreeDigits
  refine fun x s => ⟨fun hfits => ?_, fun hpast => ?_⟩
  · obtain ⟨hhundreds, htens, hunits⟩ := s.readByte_storeBytes_decimalDigits s.index.toNat (s.getV x)
    exact ⟨_, exec_bcdVx_ok x (s.checkSpan_ok .memWrite 3 (.inr hfits)), hhundreds, htens, hunits, by simp,
      (s.storeBytes_changesOnly _ (decimalDigits (s.getV x))).setPc _⟩
  · exact exec_bcdVx_error x (s.checkSpan_error .memWrite (by decide) (Nat.lt_succ_of_le hpast))

end Sys2Proof.Machine

/-! SUPPORT. Clearing and one row (44_display.md R124, R125): the frame of a write to the framebuffer, and a row's effect
on the eight pixels it meets and on every other pixel. -/

namespace Sys2Proof.Machine

/-! ## CLS (R124, R126) -/

/-- A write to the framebuffer is within every frame that names the display. -/
theorem ChangesOnly.withFb {regs : Reg → Prop} {parts : List Part} {bytes : Nat → Prop} {s t : State}
    (h : ChangesOnly regs parts bytes s t) (hp : .display ∈ parts) (fb : Framebuffer) :
    ChangesOnly regs parts bytes s (t.withFb fb) :=
  { h with
    otherParts := fun p hn => by
      have hsame := h.otherParts p hn
      cases p with
      | display => exact absurd hp hn
      | _ => exact hsame }

@[simp] theorem Framebuffer.isLit_clear (fb : Framebuffer) (q : Pixel) : fb.clear.isLit q = false := rfl

@[simp] theorem Framebuffer.dirty_clear (fb : Framebuffer) : fb.clear.dirty = true := rfl

/-- CLS clears the framebuffer and advances (R126). -/
theorem exec_cls (s : State) : exec .cls s = .next (s.withFb s.fb.clear).advance := rfl

/-- Settles O52: CLS is one write to the framebuffer, of the cleared one. -/
theorem clsTurnsEveryPixelOff : Obligations.ClsTurnsEveryPixelOff := by
  unfold Obligations.ClsTurnsEveryPixelOff
  exact fun s => ⟨_, exec_cls s, s.fb.isLit_clear, s.fb.dirty_clear, rfl,
    ((ChangesOnly.refl _ [.display] _ s).withFb (by decide) _).setPc _⟩

/-! ## One row (R125) -/

/-- No two bits of a row fall on one column, so the row turns the column of bit `i` over exactly by that bit. -/
theorem rowHits_drawn (g : Geom) (byte : Byte) (cx : Nat) {i : Nat} (hi : i < 8) :
    rowHits g byte cx ((cx + i) % g.width) = rowBit byte i := by
  have hinj {j : Nat} (hj : j < 8) (hcol : (cx + i) % g.width = (cx + j) % g.width) : j = i := by
    by_contra hne
    exact Pixel.drawn_ne g cx 0 hj hi hne (congrArg (Pixel.mk · _) hcol.symm)
  rw [Bool.eq_iff_iff]
  simp only [rowHits, List.any_eq_true, List.mem_range, Bool.and_eq_true, decide_eq_true_eq]
  constructor
  · rintro ⟨j, hj, hbit, hcol⟩
    exact hinj hj hcol ▸ hbit
  · exact fun hbit => ⟨i, hi, hbit, rfl⟩

/-- A pixel that a row turns over is one of the eight its bits fall on. -/
theorem eq_drawn_of_rowHits {g : Geom} {byte : Byte} {cx cy : Nat} {q : Pixel} (hrow : q.row = cy % g.height)
    (hhits : rowHits g byte cx q.col = true) : ∃ i < 8, q = Pixel.drawn g cx cy i := by
  simp only [rowHits, List.any_eq_true, List.mem_range, Bool.and_eq_true, decide_eq_true_eq] at hhits
  obtain ⟨i, hi, -, hcol⟩ := hhits
  exact ⟨i, hi, congrArg₂ Pixel.mk hcol hrow⟩

/-- The pixel bit `i` of a row falls on takes the exclusive OR with that bit. -/
theorem Framebuffer.isLit_drawRow_drawn (g : Geom) (fb : Framebuffer) (byte : Byte) (cx cy : Nat) {i : Nat}
    (hi : i < 8) : (fb.drawRow g byte cx cy).1.isLit (Pixel.drawn g cx cy i) =
      (fb.isLit (Pixel.drawn g cx cy i) ^^ rowBit byte i) := by
  rw [Framebuffer.isLit_drawRow]
  simp [Pixel.drawn, rowHits_drawn g byte cx hi]

/-- A pixel none of the eight bits falls on is as before. -/
theorem Framebuffer.isLit_drawRow_of_ne (g : Geom) (fb : Framebuffer) (byte : Byte) (cx cy : Nat) {q : Pixel}
    (hq : ∀ i < 8, q ≠ Pixel.drawn g cx cy i) : (fb.drawRow g byte cx cy).1.isLit q = fb.isLit q := by
  have hmiss : (decide (q.row = cy % g.height) && rowHits g byte cx q.col) = false := by
    rw [Bool.eq_false_iff, ne_eq, Bool.and_eq_true, decide_eq_true_eq]
    rintro ⟨hrow, hhits⟩
    obtain ⟨i, hi, hdrawn⟩ := eq_drawn_of_rowHits hrow hhits
    exact hq i hi hdrawn
  rw [Framebuffer.isLit_drawRow, hmiss, Bool.xor_false]

/-- A row collides exactly where one of its set bits falls on a lit pixel. -/
theorem Framebuffer.collided_drawRow_iff (g : Geom) (fb : Framebuffer) (byte : Byte) (cx cy : Nat) :
    (fb.drawRow g byte cx cy).2 = true ↔
      ∃ i < 8, rowBit byte i = true ∧ fb.isLit (Pixel.drawn g cx cy i) = true := by
  simp only [Framebuffer.collided_drawRow, List.any_eq_true, List.mem_range, Bool.and_eq_true]

/-- Settles O53: by the eight pixels of the row, the other pixels, the collision and `DIRTY`. -/
theorem drawRowXorsEightPixels : Obligations.DrawRowXorsEightPixels := by
  unfold Obligations.DrawRowXorsEightPixels
  exact fun g fb byte cx cy => ⟨fun _ hi => fb.isLit_drawRow_drawn g byte cx cy hi,
    fun _ hq => fb.isLit_drawRow_of_ne g byte cx cy hq, fb.collided_drawRow_iff g byte cx cy,
    fb.dirty_drawRow g byte cx cy⟩

end Sys2Proof.Machine

/-! SUPPORT. The timers and the key wait (45_timers_keys.md): the frames of a write to a timer and to `CORE`, counting
down, and the end of the key wait. -/

namespace Sys2Proof.Machine

/-! ## Frames -/

section
variable {regs : Reg → Prop} {parts : List Part} {bytes : Nat → Prop} {s t : State}

/-- A write to the delay timer is within every frame that names it. -/
theorem ChangesOnly.setDt (h : ChangesOnly regs parts bytes s t) (hp : .delayTimer ∈ parts) (b : Byte) :
    ChangesOnly regs parts bytes s (t.setDt b) :=
  { h with
    otherParts := fun p hn => by
      have hsame := h.otherParts p hn
      cases p with
      | delayTimer => exact absurd hp hn
      | _ => exact hsame }

/-- A write to the sound timer is within every frame that names it. -/
theorem ChangesOnly.setSt (h : ChangesOnly regs parts bytes s t) (hp : .soundTimer ∈ parts) (b : Byte) :
    ChangesOnly regs parts bytes s (t.setSt b) :=
  { h with
    otherParts := fun p hn => by
      have hsame := h.otherParts p hn
      cases p with
      | soundTimer => exact absurd hp hn
      | _ => exact hsame }

/-- A write to `CORE` is within every frame that names it. -/
theorem ChangesOnly.setCore (h : ChangesOnly regs parts bytes s t) (hp : .core ∈ parts) (c : CoreState) :
    ChangesOnly regs parts bytes s { t with core := c } :=
  { h with
    otherParts := fun p hn => by
      have hsame := h.otherParts p hn
      cases p with
      | core => exact absurd hp hn
      | _ => exact hsame }

/-- A frame need not name a part that came out as it was. -/
theorem ChangesOnly.dropPart {p : Part} (h : ChangesOnly regs (p :: parts) bytes s t) (hp : p.same s t) :
    ChangesOnly regs parts bytes s t :=
  { h with
    otherParts := fun q hn => by
      by_cases hq : q = p
      · exact hq ▸ hp
      · exact h.otherParts q (List.not_mem_cons_of_ne_of_not_mem hq hn) }

end

/-! ## `TICK` (R135) -/

/-- Counting down takes one from the value, floored at 0 (R135). -/
@[simp] theorem toNat_countDown (b : Byte) : (countDown b).toNat = b.toNat - 1 := by
  unfold countDown
  split
  · next hpos => exact BitVec.toNat_sub_of_le hpos
  · next hzero => omega

/-- Settles O26: the two timers count down, and the step is the move. -/
theorem tickCountsEachTimerDown : Obligations.TickCountsEachTimerDown := by
  unfold Obligations.TickCountsEachTimerDown
  exact fun s => ⟨toNat_countDown s.dt, toNat_countDown s.st, rfl, fun _ h => step_of_nextMove h⟩

/-! ## The timer moves (R131, R133, R134) -/

/-- Settles O57: one write to a register, to the delay timer and to the sound timer, each followed by the advance. -/
theorem timerMovesCopyOneByte : Obligations.TimerMovesCopyOneByte := by
  unfold Obligations.TimerMovesCopyOneByte
  refine fun x s => ⟨exec_of_setV_advance rfl, ?_, ?_⟩
  · exact ⟨(s.setDt (s.getV x)).advance, rfl, rfl, rfl,
      ((ChangesOnly.refl _ [.delayTimer] _ s).setDt (by decide) _).setPc _⟩
  · exact ⟨(s.setSt (s.getV x)).advance, rfl, rfl, rfl,
      ((ChangesOnly.refl _ [.soundTimer] _ s).setSt (by decide) _).setPc _⟩

/-! ## The key wait (R132) -/

/-- A key as a register's byte keeps its number (R132). -/
theorem toNat_key_zeroExtend (k : Key) : (k.zeroExtend 8 : Byte).toNat = k.toNat :=
  BitVec.toNat_setWidth_of_le (by decide)

/-- The provider's answer ends the wait: the key is in the register, and only `PC` and `CORE` have changed besides
(R132). -/
theorem State.awaitKey_answered {s : State} {k : Key} (x : Reg) (h : s.input.key = some k) :
    (s.awaitKey x).getV x = k.zeroExtend 8 ∧ (s.awaitKey x).pc = s.pc + 2 ∧ (s.awaitKey x).core = .ready ∧
      ChangesOnly (· = x) [.core] noByte s (s.awaitKey x) := by
  rw [State.awaitKey_some s x h]
  exact ⟨s.getV_setV_self x _, rfl, rfl,
    (((ChangesOnly.refl (· = x) [.core] _ s).setV rfl _).setPc _).setCore (by decide) _⟩

/-- The core's move in the key wait is to ask again (40_sequencer.md R86). -/
theorem coreMove_of_waitKey {s : State} {x : Reg} (h : s.core = .waitKey x) (input : StepInput) :
    coreMove s input = .next ((s.latch input).awaitKey x) := by
  rw [coreMove, h]

/-- Settles O58: executed and asking again alike, the wait ends by the answer; with none it only suspends. -/
theorem keyWaitWritesTheKeyOrSuspends : Obligations.KeyWaitWritesTheKeyOrSuspends := by
  unfold Obligations.KeyWaitWritesTheKeyOrSuspends
  refine fun x s => ⟨fun hready k hkey => ?_, fun _ hkey => ?_, fun hwait input k hkey => ?_⟩
  · obtain ⟨hv, hpc, hcore, hframe⟩ := s.awaitKey_answered x hkey
    exact ⟨s.awaitKey x, rfl, hv ▸ toNat_key_zeroExtend k, hpc, hcore, hframe.dropPart (hcore.trans hready.symm)⟩
  · exact congrArg Host.Outcome.next (s.awaitKey_none x hkey)
  · obtain ⟨hv, hpc, hcore, hframe⟩ := (s.latch input).awaitKey_answered x hkey
    exact ⟨_, coreMove_of_waitKey hwait input, hv ▸ toNat_key_zeroExtend k, hpc, hcore, hframe⟩

end Sys2Proof.Machine

/-! SUPPORT. Failures (60_exceptions.md): every check reports at the `PC` of the instruction that makes it, and a step
that reports does nothing else. -/

namespace Sys2Proof.Machine

/-! ## Checks report at `PC` (R139, R140) -/

/-- Where the check fails, its report carries the state's `PC`. -/
def State.ReportsAtPc {α : Type} (s : State) (check : Except Report α) : Prop :=
  ∀ report, check = .error report → report.pc = s.pc

section
variable {α : Type} (s : State)

/-- A check is one test with one report. -/
theorem State.reportsAtPc_dite {c : Prop} [Decidable c] {result : c → α} {report : Report} (h : report.pc = s.pc) :
    s.ReportsAtPc (if hc : c then .ok (result hc) else .error report) := by
  intro report' herror
  split at herror <;> cases herror
  exact h

theorem State.fetch_reportsAtPc : s.ReportsAtPc s.fetch := s.reportsAtPc_dite rfl

theorem State.checkSpan_reportsAtPc (kind : BoundsKind) (length : Nat) : s.ReportsAtPc (s.checkSpan kind length) :=
  s.reportsAtPc_dite rfl

theorem State.checkKey_reportsAtPc (k : Byte) : s.ReportsAtPc (s.checkKey k) := s.reportsAtPc_dite rfl

theorem State.indexSum_reportsAtPc (b : Byte) : s.ReportsAtPc (s.indexSum b) := s.reportsAtPc_dite rfl

theorem State.push_reportsAtPc (r : Word) : s.ReportsAtPc (s.push r) := s.reportsAtPc_dite rfl

theorem State.pop_reportsAtPc : s.ReportsAtPc s.pop := s.reportsAtPc_dite rfl

end

/-! ## What a failure changes (R141) -/

/-- Between the two states nothing happened but the taking of this failure, at the first one's `PC`. -/
def State.OnlyReports (s t : State) (report : Report) : Prop := t = s.raise report ∧ report.pc = s.pc

section
variable {s t : State} {report : Report}

/-- The report in `CORE` after a failure is taken is the one it was taken with. -/
theorem State.onlyReports_raise {report' : Report} (hpc : report'.pc = s.pc)
    (hfail : (s.raise report').core = .failed report) : s.OnlyReports (s.raise report') report := by
  cases CoreState.failed.inj hfail
  exact ⟨rfl, hpc⟩

/-- An instruction whose effects leave `CORE` alone, after a check that reports at `PC`: a failure found after it was
there before it, or is the check's and all that happened. -/
theorem State.finish_failed {α : Type} {check : Except Report α} {effects : α → State}
    (h : s.finish (check.map effects) = .next t) (hfail : t.core = .failed report)
    (hcheck : s.ReportsAtPc check) (heffects : ∀ a, check = .ok a → (effects a).core = s.core) :
    s.core = .failed report ∨ s.OnlyReports t report := by
  cases hc : check with
  | ok a =>
    rw [hc] at h
    cases h
    exact .inl ((heffects a hc).symm.trans hfail)
  | error report' =>
    rw [hc] at h
    cases h
    exact .inr (State.onlyReports_raise (hcheck report' hc) hfail)

/-- Asking for a key reports no failure (45_timers_keys.md R132). -/
theorem State.awaitKey_not_failed (s : State) (x : Reg) : (s.awaitKey x).core ≠ .failed report := by
  unfold State.awaitKey
  split <;> exact CoreState.noConfusion

theorem State.push_core {r : Word} (h : s.push r = .ok t) : t.core = s.core := by
  unfold State.push at h
  split at h <;> cases h
  rfl

theorem State.pop_core {popped : Word × State} (h : s.pop = .ok popped) : popped.2.core = s.core := by
  unfold State.pop at h
  split at h <;> cases h
  rfl

/-- A failure found after an instruction was there before it, or is the instruction's own and all it did. -/
theorem exec_failed {i : Instr} (h : exec i s = .next t) (hfail : t.core = .failed report) :
    s.core = .failed report ∨ s.OnlyReports t report := by
  cases i
  case ret => exact State.finish_failed h hfail s.pop_reportsAtPc fun _ => State.pop_core
  case callAddr nnn => exact State.finish_failed h hfail (s.push_reportsAtPc _) fun _ => State.push_core
  case drwVxVyN x y n => exact State.finish_failed h hfail (s.checkSpan_reportsAtPc _ _) fun _ _ => rfl
  case skpVx x => exact State.finish_failed h hfail (s.checkKey_reportsAtPc _) fun _ _ => rfl
  case sknpVx x => exact State.finish_failed h hfail (s.checkKey_reportsAtPc _) fun _ _ => rfl
  case addIVx x => exact State.finish_failed h hfail (s.indexSum_reportsAtPc _) fun _ _ => rfl
  case ldVxMem x => exact State.finish_failed h hfail (s.checkSpan_reportsAtPc _ _) fun _ _ => rfl
  case bcdVx x => exact State.finish_failed h hfail (s.checkSpan_reportsAtPc _ _) fun _ _ => s.storeBytes_core _ _
  case ldMemVx x => exact State.finish_failed h hfail (s.checkSpan_reportsAtPc _ _) fun _ _ => s.storeBytes_core _ _
  case ldVxK x =>
    cases h
    exact absurd hfail (s.awaitKey_not_failed x)
  -- the rest check nothing and leave `CORE` alone
  all_goals
    cases h
    exact .inl hfail

/-- A failure found after a step of an instruction was there before it, or is the step's own and all it did. -/
theorem runInstruction_failed (h : runInstruction s = .next t) (hfail : t.core = .failed report) :
    s.core = .failed report ∨ s.OnlyReports t report := by
  rcases runInstruction_cases h with ⟨report', hfetch, rfl⟩ | ⟨w, _, _, _, rfl⟩ | ⟨_, _, _, _, hexec⟩
  · exact .inr (State.onlyReports_raise (s.fetch_reportsAtPc report' hfetch) hfail)
  · exact .inr (State.onlyReports_raise rfl hfail)
  · exact exec_failed hexec hfail

end

/-- Settles O14: a state that is ready has failed at nothing, so the failure is the step's own. -/
theorem failingStepChangesOnlyCore : Obligations.FailingStepChangesOnlyCore := by
  unfold Obligations.FailingStepChangesOnlyCore
  intro s t report hready h hfail
  rcases runInstruction_failed h hfail with hbefore | ⟨rfl, hpc⟩
  · rw [hready] at hbefore
    cases hbefore
  · exact ⟨rfl, rfl, hpc⟩

end Sys2Proof.Machine

/-! SUPPORT. The round trips between words and instructions, and the opcode map against the decode tree
(30_encoding.md sections 1 to 3 and 5). -/

namespace Sys2Proof

/-! ## From an instruction to its word and back -/

/-- Decoding reads the two bytes of a word, as memory holds them, and nothing after them (30_encoding.md R66). -/
theorem decodeBytes_bytesOfWord (w : Word) (rest : List Byte) : decodeBytes (bytesOfWord w ++ rest) = decode w :=
  congrArg decode (concat_slices 8 8 w)

/-- The tree finds an instruction by the family and the selector its word was assembled from (30_encoding.md R68,
R70). -/
theorem decode_encode (i : Instr) : decode (encode i) = .ok i := by
  cases i
  case cls | ret => rfl
  -- families 8 and F, E, 5 and 9 have a selector; the other families are one instruction each
  case ldVxVy | orVxVy | andVxVy | xorVxVy | addVxVy | subVxVy | shrVxVy | subnVxVy | shlVxVy =>
    simp [encode, decode, decode8]
  case ldVxDt | ldVxK | ldDtVx | ldStVx | addIVx | ldFVx | bcdVx | ldMemVx | ldVxMem =>
    simp [encode, decode, decodeF]
  case skpVx | sknpVx => simp [encode, decode, decodeE]
  case seVxVy => simp [encode, decode, decode5]
  case sneVxVy => simp [encode, decode, decode9]
  all_goals simp [encode, decode]

/-- Settles O2: the bytes are read as the word, which decodes to the instruction it encodes. -/
theorem decodeEncodeRoundTrip : Obligations.DecodeEncodeRoundTrip := by
  unfold Obligations.DecodeEncodeRoundTrip
  exact fun i rest => (decodeBytes_bytesOfWord (encode i) rest).trans (decode_encode i)

/-! ## From a word to its instruction and back -/

section
variable {w : Word} {op : BitVec 4}

theorem formatAddr_of_fields (hop : opOf w = op) : formatAddr op (nnnOf w) = w :=
  hop ▸ formatAddr_fields w

theorem formatRk_of_fields (hop : opOf w = op) : formatRk op (xOf w) (kkOf w) = w :=
  hop ▸ formatRk_fields w

theorem formatRf_of_fields {kk : Byte} (hop : opOf w = op) (hkk : kkOf w = kk) : formatRk op (xOf w) kk = w :=
  hkk ▸ formatRk_of_fields hop

theorem formatRrn_of_fields (hop : opOf w = op) : formatRr op (xOf w) (yOf w) (nOf w) = w :=
  hop ▸ formatRr_fields w

theorem formatRr_of_fields {n : Nibble} (hop : opOf w = op) (hn : nOf w = n) :
    formatRr op (xOf w) (yOf w) n = w :=
  hn ▸ formatRrn_of_fields hop

/-- Where the decoder's answer is an instruction, the word is that instruction's. -/
def AnswersItsWord (w : Word) (answer : Except DecodeError Instr) : Prop := ∀ i, answer = .ok i → encode i = w

theorem AnswersItsWord.ok {i : Instr} (h : encode i = w) : AnswersItsWord w (.ok i) := by
  rintro _ ⟨⟩
  exact h

theorem AnswersItsWord.error {e : DecodeError} : AnswersItsWord w (.error e) := by
  rintro _ ⟨⟩

/-- One test of the tree: each answer is right where it is given. -/
theorem AnswersItsWord.ite {c : Prop} [Decidable c] {a b : Except DecodeError Instr}
    (ha : c → AnswersItsWord w a) (hb : AnswersItsWord w b) : AnswersItsWord w (if c then a else b) := by
  split
  · next hc => exact ha hc
  · exact hb

/-- One test whose answer is an instruction. -/
theorem AnswersItsWord.select {c : Prop} [Decidable c] {i : Instr} {b : Except DecodeError Instr}
    (hi : c → encode i = w) (hb : AnswersItsWord w b) : AnswersItsWord w (if c then .ok i else b) :=
  .ite (fun hc => .ok (hi hc)) hb

theorem decode0_answersItsWord (h : opOf w = 0x0) : AnswersItsWord w (decode0 w) :=
  .select (fun hs => (eq_formatAddr_iff.mpr ⟨h, hs⟩).symm) <|
  .select (fun hs => (eq_formatAddr_iff.mpr ⟨h, hs⟩).symm) .error

theorem decode5_answersItsWord (h : opOf w = 0x5) : AnswersItsWord w (decode5 w) :=
  .select (formatRr_of_fields h) .error

theorem decode8_answersItsWord (h : opOf w = 0x8) : AnswersItsWord w (decode8 w) :=
  .select (formatRr_of_fields h) <| .select (formatRr_of_fields h) <| .select (formatRr_of_fields h) <|
  .select (formatRr_of_fields h) <| .select (formatRr_of_fields h) <| .select (formatRr_of_fields h) <|
  .select (formatRr_of_fields h) <| .select (formatRr_of_fields h) <| .select (formatRr_of_fields h) .error

theorem decode9_answersItsWord (h : opOf w = 0x9) : AnswersItsWord w (decode9 w) :=
  .select (formatRr_of_fields h) .error

theorem decodeE_answersItsWord (h : opOf w = 0xE) : AnswersItsWord w (decodeE w) :=
  .select (formatRf_of_fields h) <| .select (formatRf_of_fields h) .error

theorem decodeF_answersItsWord (h : opOf w = 0xF) : AnswersItsWord w (decodeF w) :=
  .select (formatRf_of_fields h) <| .select (formatRf_of_fields h) <| .select (formatRf_of_fields h) <|
  .select (formatRf_of_fields h) <| .select (formatRf_of_fields h) <| .select (formatRf_of_fields h) <|
  .select (formatRf_of_fields h) <| .select (formatRf_of_fields h) <| .select (formatRf_of_fields h) .error

/-- The tree answers with an instruction of the word's own family and selector, whose operands are the word's other
fields (30_encoding.md R69, R70). -/
theorem decode_answersItsWord (w : Word) : AnswersItsWord w (decode w) :=
  .ite decode0_answersItsWord <|
  .select formatAddr_of_fields <|
  .select formatAddr_of_fields <|
  .select formatRk_of_fields <|
  .select formatRk_of_fields <|
  .ite decode5_answersItsWord <|
  .select formatRk_of_fields <|
  .select formatRk_of_fields <|
  .ite decode8_answersItsWord <|
  .ite decode9_answersItsWord <|
  .select formatAddr_of_fields <|
  .select formatAddr_of_fields <|
  .select formatRk_of_fields <|
  .select formatRrn_of_fields <|
  .ite decodeE_answersItsWord <|
  .ite decodeF_answersItsWord .error

end

/-- Settles O3: along the tests of the tree. -/
theorem encodeDecodeRoundTrip : Obligations.EncodeDecodeRoundTrip := by
  unfold Obligations.EncodeDecodeRoundTrip
  exact decode_answersItsWord

/-! ## The opcode map -/

/-- Two rows whose values differ under both masks have no word in common. -/
theorem Row.disjoint_of_ne {a b : Row} (h : a.value &&& b.mask ≠ b.value &&& a.mask) (w : Word) :
    ¬ (a.holds w = true ∧ b.holds w = true) := by
  simp only [Row.holds, beq_iff_eq]
  rintro ⟨ha, hb⟩
  refine h ?_
  rw [← ha, ← hb, BitVec.and_assoc, BitVec.and_assoc, BitVec.and_comm a.mask]

/-- Settles O5: any two rows differ under both their masks. -/
theorem opcodeMapRowsAreDisjoint : Obligations.OpcodeMapRowsAreDisjoint := by
  unfold Obligations.OpcodeMapRowsAreDisjoint
  have hne : opcodeMap.Pairwise fun a b => a.value &&& b.mask ≠ b.value &&& a.mask := by decide
  exact ⟨rfl, hne.imp Row.disjoint_of_ne⟩

/-- The word an instruction encodes to lies in its row, by the mask of the instruction's format (30_encoding.md R77). -/
theorem Instr.row_holds_encode (i : Instr) : i.row.holds (encode i) = true := by
  cases i
  case cls | ret => decide
  all_goals apply Laws.MapRow.holds_of_eq
  case seVxVy | ldVxVy | orVxVy | andVxVy | xorVxVy | addVxVy | subVxVy | shrVxVy | subnVxVy | shlVxVy | sneVxVy =>
    exact Laws.MapRow.mask_rr _ _ _ _
  case drwVxVyN => exact Laws.MapRow.mask_rrn _ _ _ _
  case jpAddr | callAddr | ldIAddr | jpV0Addr => exact Laws.MapRow.mask_addr _ _
  case seVxKk | sneVxKk | ldVxKk | addVxKk | rndVxKk => exact Laws.MapRow.mask_rk _ _ _
  all_goals exact Laws.MapRow.mask_rf _ _ _

theorem Instr.row_mem_opcodeMap (i : Instr) : i.row ∈ opcodeMap := by
  cases i <;> simp [opcodeMap, Instr.row]

section
variable {w v : Word}

theorem opOf_of_mask_family (h : w &&& 0xF000 = v) : opOf w = opOf v := by
  rw [← h, opOf, opOf, BitVec.extractLsb'_and]
  exact (BitVec.and_allOnes (x := w.extractLsb' 12 4)).symm

theorem opOf_nOf_of_mask_rr (h : w &&& 0xF00F = v) : opOf w = opOf v ∧ nOf w = nOf v := by
  rw [← h, opOf, opOf, nOf, nOf, BitVec.extractLsb'_and, BitVec.extractLsb'_and]
  exact ⟨(BitVec.and_allOnes (x := w.extractLsb' 12 4)).symm, (BitVec.and_allOnes (x := w.extractLsb' 0 4)).symm⟩

theorem opOf_kkOf_of_mask_rf (h : w &&& 0xF0FF = v) : opOf w = opOf v ∧ kkOf w = kkOf v := by
  rw [← h, opOf, opOf, kkOf, kkOf, BitVec.extractLsb'_and, BitVec.extractLsb'_and]
  exact ⟨(BitVec.and_allOnes (x := w.extractLsb' 12 4)).symm, (BitVec.and_allOnes (x := w.extractLsb' 0 8)).symm⟩

/-- A word of any row is accepted by the tree: the mask of the row covers the family and the selector the tree tests
(30_encoding.md R70, R77). -/
theorem decode_ok_of_row_holds {i : Instr} (h : i.row.holds w = true) : ∃ j, decode w = .ok j := by
  have hmask : w &&& i.row.mask = i.row.value := eq_of_beq h
  cases i <;> dsimp only [Instr.row] at hmask
  case cls =>
    obtain rfl : w = 0x00E0 := (BitVec.and_allOnes (x := w)).symm.trans hmask
    exact ⟨.cls, rfl⟩
  case ret =>
    obtain rfl : w = 0x00EE := (BitVec.and_allOnes (x := w)).symm.trans hmask
    exact ⟨.ret, rfl⟩
  case seVxVy | ldVxVy | orVxVy | andVxVy | xorVxVy | addVxVy | subVxVy | shrVxVy | subnVxVy | shlVxVy | sneVxVy =>
    obtain ⟨hop, hn⟩ := opOf_nOf_of_mask_rr hmask
    exact ⟨_, by simp only [decode, decode5, decode8, decode9, hop, hn]; rfl⟩
  case skpVx | sknpVx | ldVxDt | ldVxK | ldDtVx | ldStVx | addIVx | ldFVx | bcdVx | ldMemVx | ldVxMem =>
    obtain ⟨hop, hkk⟩ := opOf_kkOf_of_mask_rf hmask
    exact ⟨_, by simp only [decode, decodeE, decodeF, hop, hkk]; rfl⟩
  -- the other families are one instruction each
  all_goals
    refine decode_ok_of_family ?_
    rw [opOf_of_mask_family hmask]
    decide

/-- The rows of the map are the instructions' rows. -/
theorem exists_instr_of_mem_opcodeMap {r : Row} (h : r ∈ opcodeMap) : ∃ i : Instr, r = i.row := by
  simp only [opcodeMap, List.cons_append, List.nil_append, List.mem_cons, List.not_mem_nil, or_false] at h
  casesm* _ ∨ _ <;> exact ⟨_, ‹_›⟩

end

/-- Settles O4: a decoded word is its instruction's own, which lies in its row; a row's word passes the tree's tests. -/
theorem decoderAcceptsTheOpcodeMap : Obligations.DecoderAcceptsTheOpcodeMap := by
  unfold Obligations.DecoderAcceptsTheOpcodeMap
  intro w
  have hrow (i : Instr) (h : decode w = .ok i) : i.row ∈ opcodeMap ∧ i.row.holds w = true :=
    ⟨i.row_mem_opcodeMap, decode_answersItsWord w i h ▸ i.row_holds_encode⟩
  refine ⟨⟨?_, ?_⟩, hrow⟩
  · rintro ⟨i, h⟩
    obtain ⟨hmem, hholds⟩ := hrow i h
    exact List.any_eq_true.mpr ⟨i.row, hmem, hholds⟩
  · intro h
    obtain ⟨r, hmem, hholds⟩ := List.any_eq_true.mp h
    obtain ⟨i, rfl⟩ := exists_instr_of_mem_opcodeMap hmem
    exact decode_ok_of_row_holds hholds

/-- Settles O1: each word is decoded along the tree. -/
theorem sampleWordsDecode : Obligations.SampleWordsDecode := by
  unfold Obligations.SampleWordsDecode
  decide

end Sys2Proof

/-! SUPPORT. What every instruction can change, said once as a frame: the registers of the access table, the parts and
the bytes its row names (10_state.md section 1, 40_sequencer.md R83). -/

namespace Sys2Proof

/-- The parts an instruction's row names as written, with `CORE` where it can suspend or report. -/
@[simp] def Instr.writesParts : Instr → List Machine.Part
  | .cls => [.display]
  | .drwVxVyN _ _ _ => [.display, .core]
  | .ret | .callAddr _ => [.stack, .core]
  | .ldIAddr _ | .ldFVx _ => [.index]
  | .addIVx _ => [.index, .core]
  | .ldDtVx _ => [.delayTimer]
  | .ldStVx _ => [.soundTimer]
  | .ldVxK _ | .skpVx _ | .sknpVx _ | .bcdVx _ | .ldMemVx _ | .ldVxMem _ => [.core]
  | _ => []

/-- The bytes an instruction's row names as written, for an index register `a`. -/
@[simp] def Instr.writesBytes (a : Nat) : Instr → Nat → Prop
  | .bcdVx _ => Machine.span a 3
  | .ldMemVx x => Machine.span a (x.toNat + 1)
  | _ => Machine.noByte

namespace Instr
variable (i : Instr)

theorem index_mem_writesParts : .index ∈ i.writesParts ↔
    (∃ nnn, i = .ldIAddr nnn) ∨ (∃ x, i = .addIVx x) ∨ ∃ x, i = .ldFVx x := by
  cases i <;> simp

theorem delayTimer_mem_writesParts : .delayTimer ∈ i.writesParts ↔ ∃ x, i = .ldDtVx x := by
  cases i <;> simp

theorem soundTimer_mem_writesParts : .soundTimer ∈ i.writesParts ↔ ∃ x, i = .ldStVx x := by
  cases i <;> simp

theorem stack_mem_writesParts : .stack ∈ i.writesParts ↔ i = .ret ∨ ∃ nnn, i = .callAddr nnn := by
  cases i <;> simp

theorem display_mem_writesParts : .display ∈ i.writesParts ↔ i = .cls ∨ ∃ x y n, i = .drwVxVyN x y n := by
  cases i <;> simp

theorem stores_of_writesBytes {a q : Nat} (h : i.writesBytes a q) : (∃ x, i = .bcdVx x) ∨ ∃ x, i = .ldMemVx x := by
  cases i
  case bcdVx x => exact .inl ⟨x, rfl⟩
  case ldMemVx x => exact .inr ⟨x, rfl⟩
  all_goals exact h.elim

end Instr

end Sys2Proof

namespace Sys2Proof.Machine

/-! ## Instructions that check -/

/-- An instruction that checks: the check passes and it has its effects, or the check's report is all it does
(40_sequencer.md R84). -/
theorem State.finish_map_cases {α : Type} {check : Except Report α} {effects : α → State} {s t : State}
    (h : s.finish (check.map effects) = .next t) :
    (∃ a, check = .ok a ∧ t = effects a) ∨ ∃ report, check = .error report ∧ t = s.raise report := by
  cases check with
  | ok a => exact .inl ⟨a, rfl, (Host.Outcome.next.inj h).symm⟩
  | error report => exact .inr ⟨report, rfl, (Host.Outcome.next.inj h).symm⟩

/-- What holds of the effects where the check passes, and of a failure, holds after the instruction. -/
theorem State.finish_keeps {P : State → Prop} {α : Type} {check : Except Report α} {effects : α → State} {s t : State}
    (h : s.finish (check.map effects) = .next t) (hraise : ∀ report, P (s.raise report))
    (heffects : ∀ a, check = .ok a → P (effects a)) : P t := by
  rcases State.finish_map_cases h with ⟨a, ha, rfl⟩ | ⟨report, _, rfl⟩
  · exact heffects a ha
  · exact hraise report

theorem State.push_eq_ok {s t : State} {r : Word} (h : s.push r = .ok t) :
    ∃ hroom : s.sd.val < stackCap,
      t = { s with stk := s.stk.set s.sd.val r hroom, sd := ⟨s.sd.val + 1, Nat.succ_lt_succ hroom⟩ } := by
  by_cases hroom : s.sd.val < stackCap
  · rw [s.push_ok r hroom] at h
    exact ⟨hroom, (Except.ok.inj h).symm⟩
  · rw [s.push_error r hroom] at h
    cases h

theorem State.pop_eq_ok {s : State} {popped : Word × State} (h : s.pop = .ok popped) :
    ∃ hlive : 0 < s.sd.val, popped = (s.stk[s.sd.val - 1], { s with sd := ⟨s.sd.val - 1, by omega⟩ }) := by
  by_cases hlive : 0 < s.sd.val
  · rw [s.pop_ok hlive] at h
    exact ⟨hlive, (Except.ok.inj h).symm⟩
  · rw [s.pop_error hlive] at h
    cases h

theorem State.checkSpan_eq_ok {s : State} {kind : BoundsKind} {length : Nat} {u : Unit}
    (h : s.checkSpan kind length = .ok u) : length = 0 ∨ s.index.toNat + length ≤ memSize := by
  by_contra hpast
  rw [s.checkSpan_error kind (by omega) (by omega)] at h
  cases h

/-! ## The frame of every instruction -/

section
variable {regs : Reg → Prop} {parts : List Part} {bytes : Nat → Prop} {s t : State}

/-- A write to the flag is within every frame that allows `VF`. -/
theorem ChangesOnly.setVF (h : ChangesOnly regs parts bytes s t) (hf : regs regF) (f : Bool) :
    ChangesOnly regs parts bytes s (t.setVF f) :=
  h.setV hf _

/-- Loading registers is within every frame that allows the registers loaded. -/
theorem ChangesOnly.loadRegs (h : ChangesOnly regs parts bytes s t) {x : Reg}
    (hx : ∀ r : Reg, r.toNat ≤ x.toNat → regs r) (a : Nat) : ChangesOnly regs parts bytes s (t.loadRegs x a) :=
  { h with
    otherRegs := fun r hr => by
      rw [State.getV_loadRegs, if_neg fun hle => hr (hx r hle)]
      exact h.otherRegs r hr }

/-- A frame that allows more. -/
theorem ChangesOnly.mono {regs' : Reg → Prop} {parts' : List Part} {bytes' : Nat → Prop}
    (h : ChangesOnly regs parts bytes s t) (hregs : ∀ r, regs r → regs' r) (hparts : ∀ p ∈ parts, p ∈ parts')
    (hbytes : ∀ a, bytes a → bytes' a) : ChangesOnly regs' parts' bytes' s t :=
  { h with
    otherRegs := fun r hr => h.otherRegs r fun hr' => hr (hregs r hr')
    otherParts := fun p hp => h.otherParts p fun hp' => hp (hparts p hp')
    otherBytes := fun a ha => h.otherBytes a fun ha' => ha (hbytes a ha') }

/-- A failure is within every frame that names `CORE`. -/
theorem ChangesOnly.raise (h : ChangesOnly regs parts bytes s t) (hp : .core ∈ parts) (report : Report) :
    ChangesOnly regs parts bytes s (t.raise report) :=
  h.setCore hp _

/-- The key wait is within every frame that allows its register and names `CORE`. -/
theorem ChangesOnly.awaitKey (h : ChangesOnly regs parts bytes s t) {x : Reg} (hx : regs x) (hp : .core ∈ parts) :
    ChangesOnly regs parts bytes s (t.awaitKey x) := by
  cases hk : t.input.key with
  | some k => exact t.awaitKey_some x hk ▸ ((h.setV hx _).setPc _).setCore hp _
  | none => exact t.awaitKey_none x hk ▸ h.setCore hp _

end

/-- An instruction that checks keeps within its frame where the frame names `CORE` and holds the effects. -/
theorem State.finish_changesOnly {regs : Reg → Prop} {parts : List Part} {bytes : Nat → Prop} {α : Type}
    {check : Except Report α} {effects : α → State} {s t : State} (h : s.finish (check.map effects) = .next t)
    (hp : .core ∈ parts) (heffects : ∀ a, check = .ok a → ChangesOnly regs parts bytes s (effects a)) :
    ChangesOnly regs parts bytes s t :=
  State.finish_keeps h (fun report => (ChangesOnly.refl _ _ _ s).raise hp report) heffects

/-- An instruction writes the registers of the access table, and the parts and bytes its row names, and nothing else
(10_state.md R17, 40_sequencer.md R83). -/
theorem exec_changesOnly {i : Instr} {s t : State} (h : exec i s = .next t) :
    ChangesOnly (i.writesReg · = true) i.writesParts (i.writesBytes s.index.toNat) s t := by
  have hs := ChangesOnly.refl (i.writesReg · = true) i.writesParts (i.writesBytes s.index.toNat) s
  cases i
  case cls => cases h; exact (hs.withFb (by simp) _).setPc _
  case ret =>
    refine State.finish_changesOnly h (by simp) fun popped hpop => ?_
    obtain ⟨_, rfl⟩ := State.pop_eq_ok hpop
    exact (hs.setStack (by simp) _ s.stk).setPc _
  case callAddr nnn =>
    refine State.finish_changesOnly h (by simp) fun t hpush => ?_
    obtain ⟨_, rfl⟩ := State.push_eq_ok hpush
    exact (hs.setStack (by simp) _ _).setPc _
  case drwVxVyN x y n =>
    exact State.finish_changesOnly h (by simp) fun _ _ =>
      ((hs.withFb (by simp) (s.drawn x y n).1).setVF rfl _).setPc _
  case skpVx | sknpVx => exact State.finish_changesOnly h (by simp) fun _ _ => hs.setPc _
  case addIVx => exact State.finish_changesOnly h (by simp) fun _ _ => (hs.setIndex (by simp) _).setPc _
  case bcdVx x =>
    exact State.finish_changesOnly h (by simp) fun _ _ =>
      ((s.storeBytes_changesOnly _ (decimalDigits (s.getV x))).mono (by simp [noReg]) (by simp) fun _ => id).setPc _
  case ldMemVx x =>
    refine State.finish_changesOnly h (by simp) fun _ _ =>
      ((s.storeBytes_changesOnly _ (s.regsUpTo x)).mono (by simp [noReg]) (by simp) ?_).setPc _
    simp
  case ldVxMem x =>
    exact State.finish_changesOnly h (by simp) fun _ _ => (hs.loadRegs (by simp [Instr.writesReg]) _).setPc _
  case ldVxK x => cases h; exact hs.awaitKey (by simp [Instr.writesReg]) (by simp)
  case ldIAddr | ldFVx => cases h; exact (hs.setIndex (by simp) _).setPc _
  case ldDtVx => cases h; exact (hs.setDt (by simp) _).setPc _
  case ldStVx => cases h; exact (hs.setSt (by simp) _).setPc _
  case addVxVy | subVxVy | shrVxVy | subnVxVy | shlVxVy =>
    cases h
    exact ((hs.setV (by simp [Instr.writesReg]) _).setVF (by simp [Instr.writesReg]) _).setPc _
  case ldVxKk | addVxKk | ldVxVy | orVxVy | andVxVy | xorVxVy | rndVxKk | ldVxDt =>
    cases h
    exact (hs.setV (by simp [Instr.writesReg]) _).setPc _
  -- the jumps and the register skips write `PC` only
  all_goals
    cases h
    exact hs.setPc _

/-- Settles O21: the frame of every instruction. -/
theorem registersWrittenAreThoseOfTheAccessTable : Obligations.RegistersWrittenAreThoseOfTheAccessTable := by
  unfold Obligations.RegistersWrittenAreThoseOfTheAccessTable
  intro i s t r h hr
  exact (exec_changesOnly h).otherRegs r (by simp [hr])

/-- Settles O20: an instruction outside each list has the part, or the bytes, outside its frame. -/
theorem onlyNamedInstructionsWriteEachPart : Obligations.OnlyNamedInstructionsWriteEachPart := by
  unfold Obligations.OnlyNamedInstructionsWriteEachPart
  intro i s t h
  have hframe := exec_changesOnly h
  have hpart (p : Part) (hp : ¬ p.same s t) : p ∈ i.writesParts := not_imp_comm.mp (hframe.otherParts p) hp
  refine ⟨fun hne => i.index_mem_writesParts.mp (hpart .index hne),
    fun hne => i.delayTimer_mem_writesParts.mp (hpart .delayTimer hne),
    fun hne => i.soundTimer_mem_writesParts.mp (hpart .soundTimer hne),
    fun hne => i.stack_mem_writesParts.mp (hpart .stack (not_and_or.mpr hne)),
    fun hne => i.display_mem_writesParts.mp (hpart .display hne), ?_⟩
  rintro ⟨a, hne⟩
  exact i.stores_of_writesBytes (not_imp_comm.mp (hframe.otherBytes a) hne)

end Sys2Proof.Machine

/-! SUPPORT. What every step keeps: the parameters, the canonical form of memory, the pixels inside the grid, and the
range of `PC` and of the stack (00_scope.md section 2; 10_state.md sections 3, 6 and 7; 20_memory.md section 1). -/

namespace Sys2Proof.Machine

/-! ## The parameters (D25) -/

/-- The key wait writes its register, `PC` and `CORE` and nothing else (45_timers_keys.md R132). -/
theorem State.awaitKey_changesOnly (s : State) (x : Reg) :
    ChangesOnly (· = x) [.core] noByte s (s.awaitKey x) :=
  (ChangesOnly.refl _ _ _ s).awaitKey rfl (by simp)

/-- Settles O19: no instruction and no transaction of the host writes the parameters. -/
theorem stepKeepsParameters : Obligations.StepKeepsParameters := by
  unfold Obligations.StepKeepsParameters
  intro s t h
  refine step_keeps (P := fun u => u.params = s.params) ?bookkeeping ?instruction ?wait ?raise ?tick ?snapshot ?load
    rfl h
  case bookkeeping => exact fun _ _ _ _ _ hu => hu
  case instruction => exact fun _ _ _ hu _ _ he => (exec_changesOnly he).params.trans hu
  case wait => exact fun u x hu _ => (u.awaitKey_changesOnly x).params.trans hu
  case raise => exact fun _ _ hu => hu
  case tick => exact fun _ hu => hu
  case snapshot => exact fun _ hu => hu
  case load => exact fun u a bytes hu _ => (u.storeBytes_params a bytes).trans hu

/-! ## Memory (20_memory.md R48, R55) -/

/-- The canonical form is a fact about memory and the font table only. -/
theorem State.memOk_congr {s t : State} (hmem : t.mem = s.mem) (hparams : t.params = s.params) :
    t.memOk = s.memOk := by
  rw [State.memOk, State.memOk, hmem, hparams]

/-- Memory is as it was, or bytes have been stored at `I`, inside memory (43_index_memory.md R119, R120). -/
def State.MayStoreAtIndex (s t : State) : Prop :=
  t.mem = s.mem ∨
    ∃ bytes, s.index.toNat + bytes.length ≤ memSize ∧ t.mem = (s.storeBytes s.index.toNat bytes).mem

/-- No instruction writes memory but by a transfer that its check has found inside memory. -/
theorem exec_mayStoreAtIndex {i : Instr} {s t : State} (h : exec i s = .next t) : s.MayStoreAtIndex t := by
  have hreport (report : Report) : s.MayStoreAtIndex (s.raise report) := .inl rfl
  cases i
  case bcdVx x =>
    refine State.finish_keeps h hreport fun _ hcheck => .inr ⟨decimalDigits (s.getV x), ?_, rfl⟩
    simpa [decimalDigits] using State.checkSpan_eq_ok hcheck
  case ldMemVx x =>
    refine State.finish_keeps h hreport fun _ hcheck => .inr ⟨s.regsUpTo x, ?_, rfl⟩
    simpa using State.checkSpan_eq_ok hcheck
  case ret =>
    refine State.finish_keeps h hreport fun popped hpop => ?_
    obtain ⟨_, rfl⟩ := State.pop_eq_ok hpop
    exact .inl rfl
  case callAddr =>
    refine State.finish_keeps h hreport fun u hpush => ?_
    obtain ⟨_, rfl⟩ := State.push_eq_ok hpush
    exact .inl rfl
  case drwVxVyN | skpVx | sknpVx | addIVx | ldVxMem =>
    exact State.finish_keeps h hreport fun _ _ => .inl rfl
  case ldVxK x =>
    cases h
    unfold State.awaitKey
    split <;> exact .inl rfl
  -- the rest check nothing and write other fields
  all_goals
    cases h
    exact .inl rfl

/-- An instruction keeps memory canonical: it stores only where its check has passed. -/
theorem exec_keeps_memOk {i : Instr} {s t : State} (hs : s.memOk = true) (h : exec i s = .next t) :
    t.memOk = true := by
  have hparams := (exec_changesOnly h).params
  rcases exec_mayStoreAtIndex h with hmem | ⟨bytes, hfits, hmem⟩
  · exact (State.memOk_congr hmem hparams).trans hs
  · rw [State.memOk_congr hmem (hparams.trans (s.storeBytes_params _ bytes).symm)]
    exact State.memOk_storeBytes bytes hs hfits

/-- Settles O16: an instruction and a `LOAD` store inside memory, and nothing else writes it. -/
theorem stepKeepsMemoryCanonical : Obligations.StepKeepsMemoryCanonical := by
  unfold Obligations.StepKeepsMemoryCanonical
  intro s t hs h
  refine step_keeps (P := fun u => u.memOk = true) ?bookkeeping ?instruction ?wait ?raise ?tick ?snapshot ?load hs h
  case bookkeeping => exact fun _ _ _ _ _ hu => hu
  case instruction => exact fun _ _ _ hu _ _ he => exec_keeps_memOk hu he
  case wait => exact fun u x hu _ => exec_keeps_memOk (i := .ldVxK x) hu rfl
  case raise => exact fun _ _ hu => hu
  case tick => exact fun _ hu => hu
  case snapshot => exact fun _ hu => hu
  case load => exact fun u a bytes hu hfits => State.memOk_storeBytes bytes hu hfits

/-! ## The framebuffer (10_state.md R36) -/

/-- An instruction keeps the lit pixels in the grid: `CLS` leaves none, `DRW` draws wrapped, the others do not draw. -/
theorem exec_keeps_fbOk {i : Instr} {s t : State} (hs : s.fbOk = true) (h : exec i s = .next t) : t.fbOk = true := by
  rcases i.isDisplay_cases with rfl | ⟨x, y, n, rfl⟩ | hi
  · cases h
    rfl
  · exact State.finish_keeps (P := fun u => u.fbOk = true) h (fun _ => hs) fun _ _ =>
      Framebuffer.wf_drawSprite _ _ _ _ _ hs
  · rw [State.fbOk, exec_keeps_fb hi h, (exec_changesOnly h).params]
    exact hs

/-- Settles O17: only `CLS` and `DRW` change the lit pixels, and both keep the canonical form. -/
theorem stepKeepsPixelsInTheGrid : Obligations.StepKeepsPixelsInTheGrid := by
  unfold Obligations.StepKeepsPixelsInTheGrid
  intro s t hs h
  refine step_keeps (P := fun u => u.fbOk = true) ?bookkeeping ?instruction ?wait ?raise ?tick ?snapshot ?load hs h
  case bookkeeping => exact fun _ _ _ _ _ hu => hu
  case instruction => exact fun _ _ _ hu _ _ he => exec_keeps_fbOk hu he
  case wait => exact fun u x hu _ => exec_keeps_fbOk (i := .ldVxK x) hu rfl
  case raise => exact fun _ _ hu => hu
  case tick => exact fun _ hu => hu
  case snapshot => exact fun _ hu => hu
  case load =>
    intro u a bytes hu _
    rw [State.fbOk, u.storeBytes_fb, u.storeBytes_params]
    exact hu

/-! ## `PC` and the stack (10_state.md R21, 41_control_transfer.md R92) -/

/-- Where an instruction could be fetched, the sequential advance does not wrap, nor the skip's. -/
theorem toNat_pc_add_two_le {pc : Word} (h : pc.toNat + 1 < memSize) : (pc + 2).toNat ≤ 0x1000 := by
  have hpc : pc.toNat + 1 < 4096 := h
  bv_omega

theorem toNat_pc_add_four_le {pc : Word} (h : pc.toNat + 1 < memSize) : (pc + 4).toNat ≤ 0x1002 := by
  have hpc : pc.toNat + 1 < 4096 := h
  bv_omega

section
variable {s : State}

/-- The range of `PC` is a fact about `PC`, the stack and `CORE` only. -/
theorem State.pcOk_congr {t : State} (hs : s.pcOk) (hpc : t.pc = s.pc) (hsd : t.sd = s.sd) (hstk : t.stk = s.stk)
    (hcore : ∀ x, t.core = .waitKey x → s.core = .waitKey x) : t.pcOk := by
  obtain ⟨hrange, hstack, hwait⟩ := hs
  rw [State.pcOk, hpc, hsd, hstk]
  exact ⟨hrange, hstack, fun x hx => hwait x (hcore x hx)⟩

/-- A failure keeps `PC` and the stack. -/
theorem State.pcOk_raise (hs : s.pcOk) (report : Report) : (s.raise report).pcOk :=
  State.pcOk_congr hs rfl rfl rfl fun _ hx => by cases hx

/-- A write to `PC` of a value in range, outside the key wait. -/
theorem State.pcOk_setPc (hs : s.pcOk) (hready : s.core = .ready) {a : Word} (ha : a.toNat ≤ 0x10FE) :
    (s.setPc a).pcOk := by
  obtain ⟨_, hstack, _⟩ := hs
  refine ⟨ha, hstack, fun x hx => ?_⟩
  rw [State.setPc_core, hready] at hx
  cases hx

theorem State.pcOk_advance (hs : s.pcOk) (hready : s.core = .ready) (hpc : s.pc.toNat + 1 < memSize) :
    s.advance.pcOk :=
  State.pcOk_setPc hs hready ((toNat_pc_add_two_le hpc).trans (by decide))

theorem State.pcOk_skipIf (hs : s.pcOk) (hready : s.core = .ready) (hpc : s.pc.toNat + 1 < memSize)
    (condition : Bool) : (s.skipIf condition).pcOk := by
  refine State.pcOk_setPc hs hready ?_
  cases condition with
  | true => exact (toNat_pc_add_four_le hpc).trans (by decide)
  | false => exact (toNat_pc_add_two_le hpc).trans (by decide)

/-- The key wait suspends where it could be fetched, or advances from there (45_timers_keys.md R132). -/
theorem State.pcOk_awaitKey (hs : s.pcOk) (hpc : s.pc.toNat + 1 < memSize) (x : Reg) : (s.awaitKey x).pcOk := by
  obtain ⟨hrange, hstack, _⟩ := hs
  cases hk : s.input.key with
  | some k =>
    rw [State.awaitKey_some s x hk]
    exact ⟨(toNat_pc_add_two_le hpc).trans (by decide), hstack, fun _ hx => by cases hx⟩
  | none =>
    rw [State.awaitKey_none s x hk]
    exact ⟨hrange, hstack, fun _ _ => hpc⟩

/-- The entry a call pushes is in range, and the entries below it are those that were live (R94). -/
theorem State.pcOk_push {t : State} (hs : s.pcOk) {r : Word} (hr : r.toNat ≤ 0x1000) (h : s.push r = .ok t) :
    t.pcOk := by
  obtain ⟨hrange, hstack, hwait⟩ := hs
  obtain ⟨hroom, rfl⟩ := State.push_eq_ok h
  refine ⟨hrange, fun k hk => ?_, hwait⟩
  by_cases hlast : s.sd.val = k.val
  · simpa [hlast] using hr
  · have hbelow : k.val < s.sd.val := Nat.lt_of_le_of_ne (Nat.le_of_lt_succ hk) (Ne.symm hlast)
    simpa [Vector.getElem_set_ne hroom k.isLt hlast] using hstack k hbelow

/-- The entry a return pops was live, so it is in range, as are those that stay (R92). -/
theorem State.pcOk_pop {popped : Word × State} (hs : s.pcOk) (h : s.pop = .ok popped) :
    popped.1.toNat ≤ 0x1000 ∧ popped.2.pcOk := by
  obtain ⟨hrange, hstack, hwait⟩ := hs
  obtain ⟨hlive, rfl⟩ := State.pop_eq_ok h
  refine ⟨hstack ⟨s.sd.val - 1, by omega⟩ (Nat.sub_lt hlive Nat.one_pos), hrange, fun k hk => hstack k ?_, hwait⟩
  exact Nat.lt_of_lt_of_le hk (Nat.sub_le _ _)

end

/-- An instruction that could be fetched leaves `PC` in range: it advances, skips, or goes to a 12-bit address, the sum
of one and a byte, or a live stack entry. -/
theorem exec_keeps_pcOk {i : Instr} {s t : State} (hs : s.pcOk) (hready : s.core = .ready)
    (hpc : s.pc.toNat + 1 < memSize) (h : exec i s = .next t) : t.pcOk := by
  have haddr (nnn : Addr) : (addrWord nnn).toNat ≤ 0xFFF := by
    rw [toNat_addrWord]
    exact Nat.le_of_lt_succ nnn.isLt
  cases i
  case ret =>
    refine State.finish_keeps h (fun r => State.pcOk_raise hs r) fun popped hpop => ?_
    obtain ⟨hentry, hrest⟩ := State.pcOk_pop hs hpop
    exact State.pcOk_setPc hrest ((State.pop_core hpop).trans hready) (hentry.trans (by decide))
  case callAddr nnn =>
    refine State.finish_keeps h (fun r => State.pcOk_raise hs r) fun u hpush => ?_
    exact State.pcOk_setPc (State.pcOk_push hs (toNat_pc_add_two_le hpc) hpush) ((State.push_core hpush).trans hready)
      ((haddr nnn).trans (by decide))
  case jpAddr nnn =>
    cases h
    exact State.pcOk_setPc hs hready ((haddr nnn).trans (by decide))
  case jpV0Addr nnn =>
    cases h
    refine State.pcOk_setPc hs hready ?_
    have hv := (s.getV 0).isLt
    have hn := nnn.isLt
    rw [toNat_byteWord_add_addrWord]
    omega
  case seVxKk | sneVxKk | seVxVy | sneVxVy =>
    cases h
    exact State.pcOk_skipIf hs hready hpc _
  case skpVx | sknpVx =>
    exact State.finish_keeps h (fun r => State.pcOk_raise hs r) fun _ _ => State.pcOk_skipIf hs hready hpc _
  case ldVxK x =>
    cases h
    exact State.pcOk_awaitKey hs hpc x
  case bcdVx | ldMemVx | drwVxVyN | addIVx | ldVxMem =>
    refine State.finish_keeps h (fun r => State.pcOk_raise hs r) fun _ _ => State.pcOk_advance ?_ (by simpa) (by simpa)
    exact State.pcOk_congr hs (by simp) (by simp) (by simp) (by simp)
  -- the rest write other fields and advance
  all_goals
    cases h
    refine State.pcOk_advance ?_ hready hpc
    exact State.pcOk_congr hs rfl rfl rfl fun _ hx => hx

/-- Settles O18: an instruction is fetched below the end of memory and leaves `PC` in range; the key wait goes on where
it was fetched; nothing else writes `PC` or the stack. -/
theorem stepKeepsPcInRange : Obligations.StepKeepsPcInRange := by
  unfold Obligations.StepKeepsPcInRange
  intro s t hs h
  refine step_keeps (P := State.pcOk) ?bookkeeping ?instruction ?wait ?raise ?tick ?snapshot ?load hs h
  case bookkeeping => exact fun _ _ _ _ _ hu => hu
  case instruction => exact fun _ _ _ hu hready hpc he => exec_keeps_pcOk hu hready hpc he
  case wait =>
    intro u x hu hx
    obtain ⟨_, _, hwait⟩ := id hu
    exact State.pcOk_awaitKey hu (hwait x hx) x
  case raise => exact fun _ r hu => State.pcOk_raise hu r
  case tick => exact fun _ hu => hu
  case snapshot => exact fun _ hu => hu
  case load => exact fun u a bytes hu _ => State.pcOk_congr hu (by simp) (by simp) (by simp) (by simp)

end Sys2Proof.Machine

/-! SUPPORT. Between the core's moves: what the host's transactions leave alone, the key wait, the ends of a run, and
the mark of the first `STEP` (10_state.md section 10, 40_sequencer.md section 2). -/

namespace Sys2Proof.Machine

/-! ## What the host's transactions leave alone -/

/-- The two states agree on the registers, `PC`, `I`, the stack, the pixels and `CORE`. -/
structure State.CoreUntouched (s t : State) : Prop where
  core : t.core = s.core
  v : t.v = s.v
  pc : t.pc = s.pc
  index : t.index = s.index
  sd : t.sd = s.sd
  stk : t.stk = s.stk
  lit : t.fb.lit = s.fb.lit

theorem State.CoreUntouched.refl (s : State) : s.CoreUntouched s := ⟨rfl, rfl, rfl, rfl, rfl, rfl, rfl⟩

theorem State.CoreUntouched.trans {s t u : State} (hst : s.CoreUntouched t) (htu : t.CoreUntouched u) :
    s.CoreUntouched u :=
  ⟨htu.core.trans hst.core, htu.v.trans hst.v, htu.pc.trans hst.pc, htu.index.trans hst.index, htu.sd.trans hst.sd,
    htu.stk.trans hst.stk, htu.lit.trans hst.lit⟩

/-- Choosing the next move leaves the core alone (40_sequencer.md R88). -/
theorem State.nextMove_coreUntouched (s : State) : s.CoreUntouched s.nextMove.2 := by
  obtain ⟨_, _, h⟩ := s.nextMove_state
  rw [h]
  exact ⟨rfl, rfl, rfl, rfl, rfl, rfl, rfl⟩

theorem State.coreUntouched_of_nextMove {s s₁ : State} {m : HostMove} (h : s.nextMove = (m, s₁)) :
    s.CoreUntouched s₁ := by
  have := s.nextMove_coreUntouched
  rwa [h] at this

/-- A step is the core's move, or leaves the core alone (10_state.md R41, R45). -/
theorem step_cases {s t : State} (h : step s = .next t) :
    (∃ input, s.nextMove.1 = .proceed input ∧ coreMove s.nextMove.2 input = .next t) ∨ s.CoreUntouched t := by
  have hnext := s.nextMove_coreUntouched
  rw [step_eq] at h
  rcases hostMove_cases h with ⟨input, hm, hcore⟩ | ⟨_, rfl⟩ | ⟨_, rfl⟩ | ⟨_, rfl⟩ | ⟨bytes, start, _, _, _, rfl⟩
  · exact .inl ⟨input, hm, hcore⟩
  · exact .inr (hnext.trans ⟨rfl, rfl, rfl, rfl, rfl, rfl, rfl⟩)
  · exact .inr (hnext.trans ⟨rfl, rfl, rfl, rfl, rfl, rfl, rfl⟩)
  · exact .inr hnext
  · exact .inr (hnext.trans ⟨by simp, by simp, by simp, by simp, by simp, by simp, by simp⟩)

/-! ## After a failure (40_sequencer.md R87) -/

/-- The core's move after a failure changes nothing. -/
theorem coreMove_of_failed {s : State} {report : Report} (h : s.core = .failed report) (input : StepInput) :
    coreMove s input = .next s := by
  rw [coreMove, h]

/-- Settles O13: after a failure the core's move changes nothing, and the other moves leave the core alone. -/
theorem failureIsFinal : Obligations.FailureIsFinal := by
  unfold Obligations.FailureIsFinal
  intro s report hs
  have hproceed (input : StepInput) (s₁ : State) (hm : s.nextMove = (.proceed input, s₁)) : step s = .next s₁ :=
    (step_of_nextMove hm).trans (coreMove_of_failed ((State.coreUntouched_of_nextMove hm).core.trans hs) input)
  refine ⟨?_, hproceed, fun input rest hagenda => hproceed input _ (State.nextMove_cons hagenda), fun t ht => ?_⟩
  · rw [State.stepResult, hs]
  · have huntouched : s.CoreUntouched t := by
      rcases step_cases ht with ⟨input, _, hcore⟩ | h
      · rw [coreMove_of_failed (s.nextMove_coreUntouched.core.trans hs)] at hcore
        cases hcore
        exact s.nextMove_coreUntouched
      · exact h
    obtain ⟨hcore, hv, hpc, hindex, hsd, hstk, hlit⟩ := huntouched
    exact ⟨hcore.trans hs, hv, hpc, hindex, hsd, hstk, hlit⟩

/-! ## The ends of a run (40_sequencer.md R90) -/

/-- The word of a jump is 0x1000 with the address in its low bits (30_encoding.md R77). -/
theorem or_addrWord_eq_encode (nnn : Addr) : 0x1000 ||| addrWord nnn = encode (.jpAddr nnn) := by
  apply BitVec.eq_of_toNat_eq
  rw [BitVec.toNat_or, toNat_addrWord]
  exact (BitVec.toNat_append 0x1#4 nnn).symm

/-- The jump to itself decodes to the jump to the address it stands at (40_sequencer.md R90). -/
theorem decode_jump_to_self {pc : Word} (h : pc.toNat ≤ 0xFFF) :
    ∃ nnn, decode (0x1000 ||| pc) = .ok (.jpAddr nnn) ∧ addrWord nnn = pc := by
  have hpc : addrWord (pc.setWidth 12) = pc := by
    apply BitVec.eq_of_toNat_eq
    rw [toNat_addrWord, BitVec.toNat_setWidth]
    omega
  refine ⟨pc.setWidth 12, ?_, hpc⟩
  calc decode (0x1000 ||| pc)
      = decode (0x1000 ||| addrWord (pc.setWidth 12)) := by rw [hpc]
    _ = .ok (.jpAddr (pc.setWidth 12)) := by rw [or_addrWord_eq_encode, decode_encode]

/-- Settles O59: after a failure nothing happens, and the jump to itself writes to `PC` the value it holds. -/
theorem endedStatesAreFixedPoints : Obligations.EndedStatesAreFixedPoints := by
  unfold Obligations.EndedStatesAreFixedPoints
  rintro s input (⟨report, hs⟩ | ⟨hready, hfetch, hpc⟩)
  · exact ⟨s, coreMove_of_failed hs input, rfl, rfl, rfl, ChangesOnly.refl _ _ _ s⟩
  · obtain ⟨nnn, hdecode, haddr⟩ := decode_jump_to_self hpc
    have hrun : coreMove s input = .next ((s.latch input).setPc s.pc) := by
      have hfetch' : (s.latch input).fetch = .ok (0x1000 ||| s.pc) := hfetch
      rw [coreMove, hready]
      simp only [runInstruction, hfetch', hdecode, exec, execJpAddr, haddr]
    exact ⟨_, hrun, rfl, rfl, rfl, ChangesOnly.refl _ _ _ _⟩

/-! ## The first `STEP` (20_memory.md R61) -/

/-- A core's move that is not made after a failure marks the run as begun, as it was before or not. -/
theorem coreMove_started {s t : State} {input : StepInput} (h : coreMove s input = .next t)
    (hs : s.started = true ∨ s.core = .ready) : t.started = true := by
  rcases coreMove_cases h with ⟨⟨report, hfailed⟩, rfl⟩ | ⟨x, _, rfl⟩ | ⟨_, hrun⟩
  · exact hs.resolve_right (by rw [hfailed]; exact CoreState.noConfusion)
  · exact ((s.latch input).awaitKey_changesOnly x).started
  · rcases runInstruction_cases hrun with ⟨_, _, rfl⟩ | ⟨_, _, _, _, rfl⟩ | ⟨_, _, _, _, hexec⟩
    · rfl
    · rfl
    · exact (exec_changesOnly hexec).started

@[simp] theorem State.nextMove_started (s : State) : s.nextMove.2.started = s.started := by
  obtain ⟨_, _, h⟩ := s.nextMove_state
  rw [h]

/-- Settles O30: the core's move sets the mark, no move takes it away, and a marked state refuses. -/
theorem loadAfterTheFirstStepIsRefused : Obligations.LoadAfterTheFirstStepIsRefused := by
  unfold Obligations.LoadAfterTheFirstStepIsRefused
  refine ⟨fun s bytes start hs => ?_, fun s t h hs => ?_, fun s t input hready hm h => ?_⟩
  · rw [State.load, if_pos hs]
  · rw [step_eq] at h
    rw [← s.nextMove_started] at hs
    rcases hostMove_cases h with ⟨_, _, hcore⟩ | ⟨_, rfl⟩ | ⟨_, rfl⟩ | ⟨_, rfl⟩ | ⟨_, _, _, _, _, rfl⟩
    · exact coreMove_started hcore (.inl hs)
    · exact hs
    · exact hs
    · exact hs
    · simpa using hs
  · rw [step_eq, hm] at h
    exact coreMove_started h (.inr (s.nextMove_coreUntouched.core.trans hready))

/-! ## The key wait (45_timers_keys.md R132) -/

/-- `TICK` counts both timers down and leaves everything else (45_timers_keys.md R135). -/
theorem State.tick_changesOnly (s : State) : ChangesOnly noReg [.delayTimer, .soundTimer] noByte s s.tick :=
  ((ChangesOnly.refl _ [.delayTimer, .soundTimer] _ s).setDt (by simp) (countDown s.dt)).setSt (by simp)
    (countDown s.st)

theorem State.timers_of_nextMove {s s₁ : State} {m : HostMove} (h : s.nextMove = (m, s₁)) :
    s₁.dt = s.dt ∧ s₁.st = s.st := by
  obtain ⟨_, _, hstate⟩ := s.nextMove_state
  rw [h] at hstate
  cases hstate
  exact ⟨rfl, rfl⟩

/-- Settles O31: the core's move asks again, the other moves leave the core alone. -/
theorem keyWaitEndsOnlyWithAKey : Obligations.KeyWaitEndsOnlyWithAKey := by
  unfold Obligations.KeyWaitEndsOnlyWithAKey
  intro s x hs
  have hcoreMove {u : State} (hu : s.CoreUntouched u) (input : StepInput) :
      coreMove u input = .next ((u.latch input).awaitKey x) := coreMove_of_waitKey (hu.core.trans hs) input
  refine ⟨fun input s₁ hm hkey => ?_, fun input s₁ k hm hkey => ?_, fun s₁ hm => ?_, fun s₁ hm => step_of_nextMove hm,
    fun t ht => ?_⟩
  · have hu := State.coreUntouched_of_nextMove hm
    rw [step_of_nextMove hm]
    refine (hcoreMove hu input).trans (congrArg Host.Outcome.next ?_)
    rw [State.awaitKey_none _ x hkey, State.latch, ← hs, ← hu.core]
  · have hu := State.coreUntouched_of_nextMove hm
    obtain ⟨hv, hpc, hcore, hframe⟩ := (s₁.latch input).awaitKey_answered x hkey
    exact ⟨_, (step_of_nextMove hm).trans (hcoreMove hu input), hv, hpc.trans (congrArg (· + 2) hu.pc), hcore, hframe⟩
  · have hu := State.coreUntouched_of_nextMove hm
    obtain ⟨hdt, hst⟩ := State.timers_of_nextMove hm
    refine ⟨s₁.tick, step_of_nextMove hm, ?_, ?_, hu.core.trans hs, hu.pc, s₁.tick_changesOnly⟩
    · rw [State.tick_dt, toNat_countDown, hdt]
    · rw [State.tick_st, toNat_countDown, hst]
  · rcases step_cases ht with ⟨input, hm, hcore⟩ | ⟨hcore, hv, hpc, hindex, hsd, hstk, _⟩
    · cases hkey : input.key with
      | some k => exact .inr ⟨input, k, hm, hkey⟩
      | none =>
        have hu := s.nextMove_coreUntouched
        rw [hcoreMove hu, State.awaitKey_none _ x hkey] at hcore
        cases hcore
        exact .inl ⟨rfl, hu.v, hu.pc, hu.index, hu.sd, hu.stk⟩
    · exact .inl ⟨hcore.trans hs, hv, hpc, hindex, hsd, hstk⟩

/-! ## The host's choice of moves (40_sequencer.md R88) -/

/-- A choice outside the rules gives way to the core's move (entry 1). -/
theorem State.settle_not_admitted {s : State} {m : HostMove} (h : s.admits m = false) (input : StepInput) :
    s.settle m input = .proceed input := if_neg (by simp [h])

/-- Settles O60: the next move by the agenda or by the free choice, and each of the four moves by its meaning. -/
theorem hostMovesInterleaveFreely : Obligations.HostMovesInterleaveFreely := by
  unfold Obligations.HostMovesInterleaveFreely
  refine ⟨fun s m rest hagenda => step_of_nextMove (State.nextMove_cons hagenda),
    fun s hagenda => step_of_nextMove (State.nextMove_nil hagenda),
    fun s choice input => ⟨fun h => State.settle_admitted h input, fun h => State.settle_not_admitted h input⟩,
    fun s m => hostMove_next, fun s m hm => ?_⟩
  have hrefl := ChangesOnly.refl noReg [.delayTimer, .soundTimer, .display] noByte s
  rcases hm with rfl | rfl | rfl | rfl
  · exact ⟨rfl, s.tick, rfl, toNat_countDown s.dt, toNat_countDown s.st, rfl, rfl,
      (hrefl.setDt (by simp) (countDown s.dt)).setSt (by simp) (countDown s.st)⟩
  · exact ⟨rfl, s.snapshot.2, rfl, rfl, rfl, rfl, rfl, hrefl.withFb (by simp) (s.fb.withDirty false)⟩
  · exact ⟨rfl, s, rfl, rfl, rfl, rfl, rfl, hrefl⟩
  · exact ⟨rfl, s, rfl, rfl, rfl, rfl, rfl, hrefl⟩

/-! ## The instruction a step runs (40_sequencer.md section 1) -/

/-- Where the bytes at `PC` decode, a step of an instruction is its execution (40_sequencer.md R79, R80, R81). -/
theorem runInstruction_of_decode_ok {s : State} {i : Instr} (hpc : s.pc.toNat + 1 < memSize)
    (hi : decode (wordOfBytes (s.readByte s.pc.toNat) (s.readByte (s.pc.toNat + 1))) = .ok i) :
    runInstruction s = exec i s := by
  simp only [runInstruction, s.fetch_ok hpc, hi]

/-- Settles O11: choosing the move and latching its inputs touch neither `PC` nor memory. -/
theorem stepRunsTheDecodedInstruction : Obligations.StepRunsTheDecodedInstruction := by
  unfold Obligations.StepRunsTheDecodedInstruction
  intro s i hready hpc hi
  have hproceed (input : StepInput) (s₁ : State) (hm : s.nextMove = (.proceed input, s₁)) :
      step s = exec i (s₁.latch input) := by
    obtain ⟨_, _, hstate⟩ := s.nextMove_state
    rw [hm] at hstate
    cases hstate
    rw [step_of_nextMove hm, hostMove, coreMove, hready]
    exact runInstruction_of_decode_ok hpc hi
  exact ⟨hproceed, fun input rest hagenda => hproceed input _ (State.nextMove_cons hagenda)⟩

/-! ## Construction (70_reset_and_hazards.md section 1) -/

/-- Settles O8: the fields of a constructed state; its memory lists nothing, so every byte reads as unlisted. -/
theorem constructionLeavesTheRest : Obligations.ConstructionLeavesTheRest := by
  unfold Obligations.ConstructionLeavesTheRest
  intro p s
  have hread (a : Nat) : s.readByte a = Memory.unlisted p.font a := rfl
  refine ⟨rfl, rfl, rfl, rfl, fun k => Vector.getElem_replicate _, fun k => ?_, fun a ha => ?_, fun _ => rfl, rfl, rfl,
    rfl, rfl⟩
  · rw [hread, Memory.unlisted, dif_pos k.isLt]
  · rw [hread, Memory.unlisted, dif_neg (Nat.not_lt.mpr ha)]

/-- A constructed state meets the invariants: it lists no byte and no pixel, and its stack is empty. -/
theorem State.construct_invariants (p : Params) : (State.construct p).memOk = true ∧ (State.construct p).fbOk = true ∧
    (p.entry.toNat ≤ 0x10FE → (State.construct p).pcOk) :=
  ⟨rfl, rfl, fun hentry => ⟨hentry, fun _ hk => absurd hk (Nat.not_lt_zero _), fun _ hx => by cases hx⟩⟩

/-- Settles O9: every constructed state, the reset state among them. -/
theorem resetMeetsTheInvariants : Obligations.ResetMeetsTheInvariants := by
  unfold Obligations.ResetMeetsTheInvariants
  obtain ⟨hmem, hfb, hpc⟩ := State.construct_invariants Params.initial
  exact ⟨⟨hmem, hfb, hpc (by decide)⟩, State.construct_invariants⟩

/-- Settles O10: a font is used or refused by its length. -/
theorem constructTakesOnlyEightyByteFonts : Obligations.ConstructTakesOnlyEightyByteFonts := by
  unfold Obligations.ConstructTakesOnlyEightyByteFonts
  refine fun entry g ss ks => ⟨rfl, fun bytes h => ?_, fun bytes h => ?_⟩
  · simp only [construct, dif_neg h]
  · exact ⟨⟨bytes.toArray, h⟩, rfl, by simp only [construct, dif_pos h]⟩

end Sys2Proof.Machine

/-! SUPPORT. The instructions that write a flag, the index sum, the key skips, and repeated ticks (42_alu.md;
43_index_memory.md R117; 45_timers_keys.md R129, R130, R135). -/

namespace Sys2Proof.Machine

/-! ## A result and a flag (10_state.md R19, 00_scope.md R11) -/

/-- The flag register after the flag is written. -/
@[simp] theorem State.getVF_setVF_advance (s : State) (f : Bool) : (s.setVF f).advance.getVF = if f then 1 else 0 :=
  s.getV_setVF_self f

/-- An instruction that writes a register, then the flag, and advances: the result stays unless it was in `VF`, and
nothing else changes. -/
theorem exec_of_setV_setVF_advance {i : Instr} {s : State} {x : Reg} {b : Byte} {f : Bool} {n : Nat}
    (h : exec i s = .next ((s.setV x b).setVF f).advance) (hb : b.toNat = n) :
    ∃ t, exec i s = .next t ∧ (x ≠ regF → (t.getV x).toNat = n) ∧ t.getVF = (if f then 1 else 0) ∧ t.pc = s.pc + 2 ∧
      ChangesOnly (fun r => r = x ∨ r = regF) [] noByte s t := by
  refine ⟨_, h, fun hx => ?_, by simp, rfl, ?_⟩
  · rw [State.advance_getV, State.getV_setVF_ne _ hx, State.getV_setV_self, hb]
  · exact (((ChangesOnly.refl _ _ _ s).setV (.inl rfl) _).setVF (.inr rfl) _).setPc _

/-- A difference of bytes is the difference modulo 256 (42_alu.md R109). -/
theorem toNat_sub_byte (a b : Byte) : (a - b).toNat = (256 + a.toNat - b.toNat) % 256 := by
  have hb := b.isLt
  rw [BitVec.toNat_sub]
  congr 1
  omega

/-- Settles O42: a result and the carry. -/
theorem addRegistersWritesSumAndCarry : Obligations.AddRegistersWritesSumAndCarry := by
  unfold Obligations.AddRegistersWritesSumAndCarry
  intro x y s
  obtain ⟨t, ht, hsum, hflag, hframe⟩ :=
    exec_of_setV_setVF_advance (i := .addVxVy x y) (s := s) rfl (BitVec.toNat_add _ _)
  exact ⟨t, ht, hsum, by simpa [carryOut] using hflag, hframe⟩

/-- Settles O43: a result and the absence of a borrow, for either order of the operands. -/
theorem subtractionsWriteDifferenceAndNoBorrow : Obligations.SubtractionsWriteDifferenceAndNoBorrow := by
  unfold Obligations.SubtractionsWriteDifferenceAndNoBorrow
  intro x y s
  refine ⟨?_, ?_⟩
  · obtain ⟨t, ht, hdiff, hflag, hframe⟩ :=
      exec_of_setV_setVF_advance (i := .subVxVy x y) (s := s) rfl (toNat_sub_byte _ _)
    exact ⟨t, ht, hdiff, by simpa [noBorrow] using hflag, hframe⟩
  · obtain ⟨t, ht, hdiff, hflag, hframe⟩ :=
      exec_of_setV_setVF_advance (i := .subnVxVy x y) (s := s) rfl (toNat_sub_byte _ _)
    exact ⟨t, ht, hdiff, by simpa [noBorrow] using hflag, hframe⟩

/-! ## Shifts (42_alu.md R110, R112) -/

/-- A flag as a number. -/
theorem toNat_flag (f : Bool) : (if f then 1 else 0 : Byte).toNat = f.toNat := by
  cases f <;> rfl

theorem toNat_shiftedOutRight (b : Byte) : (shiftedOutRight b).toNat = b.toNat % 2 := by
  rw [shiftedOutRight, BitVec.getLsbD, Nat.toNat_testBit, Nat.pow_zero, Nat.div_one]

theorem toNat_shiftedOutLeft (b : Byte) : (shiftedOutLeft b).toNat = b.toNat / 128 := by
  have hb := b.isLt
  rw [shiftedOutLeft, BitVec.getLsbD, Nat.toNat_testBit]
  omega

theorem toNat_shiftRight_one (b : Byte) : (b >>> 1).toNat = b.toNat / 2 := by
  rw [BitVec.toNat_ushiftRight, Nat.shiftRight_eq_div_pow]

theorem toNat_shiftLeft_one (b : Byte) : (b <<< 1).toNat = b.toNat * 2 % 256 := by
  rw [BitVec.toNat_shiftLeft, Nat.shiftLeft_eq]

theorem State.shiftOperand_eq (s : State) (x y : Reg) :
    s.shiftOperand x y = if s.params.shiftSrc = .vx then s.getV x else s.getV y := by
  unfold State.shiftOperand
  split <;> simp [*]

/-- Settles O44: a result and the bit shifted out, on either source. -/
theorem shiftsMoveOneBitIntoTheFlag : Obligations.ShiftsMoveOneBitIntoTheFlag := by
  unfold Obligations.ShiftsMoveOneBitIntoTheFlag
  intro x y s
  dsimp only
  rw [← s.shiftOperand_eq x y]
  refine ⟨?_, ?_⟩
  · obtain ⟨t, ht, hshift, hflag, hframe⟩ :=
      exec_of_setV_setVF_advance (i := .shrVxVy x y) (s := s) rfl (toNat_shiftRight_one _)
    exact ⟨t, ht, hshift, by rw [hflag, toNat_flag, toNat_shiftedOutRight], hframe⟩
  · obtain ⟨t, ht, hshift, hflag, hframe⟩ :=
      exec_of_setV_setVF_advance (i := .shlVxVy x y) (s := s) rfl (toNat_shiftLeft_one _)
    exact ⟨t, ht, hshift, by rw [hflag, toNat_flag, toNat_shiftedOutLeft], hframe⟩

/-! ## The flag is a bit (10_state.md R19) -/

theorem flag_eq_zero_or_one (f : Bool) : (if f then 1 else 0 : Byte) = 0 ∨ (if f then 1 else 0 : Byte) = 1 := by
  cases f
  · exact .inl rfl
  · exact .inr rfl

/-- Settles O23: each of the six writes the flag last, unless it reports. -/
theorem flagIsZeroOrOne : Obligations.FlagIsZeroOrOne := by
  unfold Obligations.FlagIsZeroOrOne
  intro i s t hi _ h ht
  cases i
  case addVxVy | subVxVy | shrVxVy | subnVxVy | shlVxVy =>
    cases h
    rw [State.getVF_setVF_advance]
    exact flag_eq_zero_or_one _
  case drwVxVyN x y n =>
    rcases State.finish_map_cases h with ⟨_, _, rfl⟩ | ⟨_, _, rfl⟩
    · rw [State.getVF_setVF_advance]
      exact flag_eq_zero_or_one _
    · cases ht
  all_goals cases hi

/-! ## The index sum (43_index_memory.md R117) -/

/-- Settles O47: on each side of 0xFFFF, by the sum that does not wrap and by the check's report. -/
theorem indexAddIsExactOrFails : Obligations.IndexAddIsExactOrFails := by
  unfold Obligations.IndexAddIsExactOrFails
  refine fun x s => ⟨fun hfits => ?_, fun hpast => ?_⟩
  · have hexec : exec (.addIVx x) s = .next (s.setIndex (s.index + byteWord (s.getV x))).advance := by
      simp only [exec, execAddIVx, s.indexSum_ok hfits, except_map_ok, State.finish_ok]
    refine exec_of_setIndex_advance hexec ?_
    rw [BitVec.toNat_add_of_lt, toNat_byteWord]
    rw [toNat_byteWord]
    omega
  · simp only [exec, execAddIVx, s.indexSum_error hpast, except_map_error, State.finish_error, State.raise]

/-! ## The key skips (45_timers_keys.md R129, R130) -/

theorem State.keyNumber_eq (s : State) (x : Reg) :
    s.keyNumber x = if s.params.keySrc = .reg then s.getV x else x.zeroExtend 8 := by
  unfold State.keyNumber
  split <;> simp [*]

/-- Settles O56: on each side of the last key, by the skip on the poll's answer and by the check's report. -/
theorem keySkipsFollowThePoll : Obligations.KeySkipsFollowThePoll := by
  unfold Obligations.KeySkipsFollowThePoll
  intro x s
  dsimp only
  rw [← s.keyNumber_eq x]
  refine ⟨fun hkey => ⟨?_, ?_⟩, fun hpast => ⟨?_, ?_⟩⟩
  · refine exec_of_skipIf (c := s.keyDown (s.keyNumber x)) ?_ Iff.rfl
    simp only [exec, execSkpVx, s.checkKey_ok hkey, except_map_ok, State.finish_ok]
  · have hexec : exec (.sknpVx x) s = .next (s.skipIf (!s.keyDown (s.keyNumber x))) := by
      simp only [exec, execSknpVx, s.checkKey_ok hkey, except_map_ok, State.finish_ok]
    have hskip := exec_of_skipIf hexec (condition := ¬ s.input.keys.getLsbD (s.keyNumber x).toNat = true)
      (by simp [State.keyDown])
    simpa only [ite_not] using hskip
  · simp only [exec, execSkpVx, s.checkKey_error hpast, except_map_error, State.finish_error, State.raise]
  · simp only [exec, execSknpVx, s.checkKey_error hpast, except_map_error, State.finish_error, State.raise]

/-! ## Repeated ticks (45_timers_keys.md R135) -/

/-- After `n` ticks each timer has lost `n`, floored at 0. -/
theorem State.toNat_timers_iterate_tick (s : State) (n : Nat) :
    (State.tick^[n] s).dt.toNat = s.dt.toNat - n ∧ (State.tick^[n] s).st.toNat = s.st.toNat - n := by
  induction n with
  | zero => exact ⟨rfl, rfl⟩
  | succ n ih =>
    obtain ⟨hdt, hst⟩ := ih
    rw [Function.iterate_succ_apply', State.tick_dt, State.tick_st, toNat_countDown, toNat_countDown, hdt, hst]
    exact ⟨Nat.sub_sub _ _ _, Nat.sub_sub _ _ _⟩

/-- Settles O27: by counting down `n` times, from the value written and up to the value read. -/
theorem repeatedTicksStopAtZero : Obligations.RepeatedTicksStopAtZero := by
  unfold Obligations.RepeatedTicksStopAtZero
  intro n s
  obtain ⟨hdt, hst⟩ := s.toNat_timers_iterate_tick n
  refine ⟨hdt, hst, fun x y => ⟨_, _, rfl, rfl, ?_⟩⟩
  rw [State.advance_getV, State.getV_setV_self]
  exact (State.toNat_timers_iterate_tick (s.setDt (s.getV x)).advance n).1

end Sys2Proof.Machine

/-! SUPPORT. Who reports what (60_exceptions.md section 1), the register transfers (43_index_memory.md R120, R121), and
calls nested to any depth (10_state.md section 6). -/

namespace Sys2Proof.Machine

/-! ## Who reports what (60_exceptions.md R140) -/

/-- From a state that is ready, an instruction whose effects leave `CORE` alone has failed by its check's report. -/
theorem State.check_eq_error_of_failed {α : Type} {check : Except Report α} {effects : α → State} {s t : State}
    {report : Report} (h : s.finish (check.map effects) = .next t) (hready : s.core = .ready)
    (hfail : t.core = .failed report) (heffects : ∀ a, check = .ok a → (effects a).core = s.core) :
    check = .error report := by
  rcases State.finish_map_cases h with ⟨a, ha, rfl⟩ | ⟨report', hcheck, rfl⟩
  · rw [heffects a ha, hready] at hfail
    cases hfail
  · rw [hcheck, CoreState.failed.inj hfail]

section
variable {s : State} {report : Report}

theorem State.checkSpan_eq_error {kind : BoundsKind} {length : Nat} (h : s.checkSpan kind length = .error report) :
    0 < length ∧ memSize < s.index.toNat + length ∧
      report = .boundsFailure kind s.pc (max s.index.toNat memSize) := by
  by_cases hpast : 0 < length ∧ memSize < s.index.toNat + length
  · rw [s.checkSpan_error kind hpast.1 hpast.2] at h
    exact ⟨hpast.1, hpast.2, (Except.error.inj h).symm⟩
  · rw [s.checkSpan_ok kind length (by omega)] at h
    cases h

theorem State.checkKey_eq_error {k : Byte} (h : s.checkKey k = .error report) :
    0xF < k.toNat ∧ report = .boundsFailure .keyRange s.pc k.toNat := by
  by_cases hpast : 0xF < k.toNat
  · rw [s.checkKey_error hpast] at h
    exact ⟨hpast, (Except.error.inj h).symm⟩
  · rw [s.checkKey_ok (Nat.le_of_not_lt hpast)] at h
    cases h

theorem State.indexSum_eq_error {b : Byte} (h : s.indexSum b = .error report) :
    0xFFFF < s.index.toNat + b.toNat ∧
      report = .boundsFailure .indexOverflow s.pc (s.index.toNat + b.toNat) := by
  by_cases hpast : 0xFFFF < s.index.toNat + b.toNat
  · rw [s.indexSum_error hpast] at h
    exact ⟨hpast, (Except.error.inj h).symm⟩
  · rw [s.indexSum_ok (Nat.le_of_not_lt hpast)] at h
    cases h

theorem State.push_eq_error {r : Word} (h : s.push r = .error report) :
    s.sd = 16 ∧ report = .boundsFailure .stackPush s.pc 16 := by
  by_cases hroom : s.sd.val < stackCap
  · rw [s.push_ok r hroom] at h
    cases h
  · rw [s.push_error r hroom] at h
    have hfull : s.sd.val = 16 := Nat.le_antisymm (Nat.le_of_lt_succ s.sd.isLt) (Nat.le_of_not_lt hroom)
    exact ⟨Fin.ext hfull, by rw [← hfull]; exact (Except.error.inj h).symm⟩

theorem State.pop_eq_error (h : s.pop = .error report) :
    s.sd = 0 ∧ report = .boundsFailure .stackPop s.pc 0 := by
  by_cases hlive : 0 < s.sd.val
  · rw [s.pop_ok hlive] at h
    cases h
  · rw [s.pop_error hlive] at h
    have hempty : s.sd.val = 0 := Nat.eq_zero_of_not_pos hlive
    exact ⟨Fin.ext hempty, by rw [← hempty]; exact (Except.error.inj h).symm⟩

end

/-- Settles O15: an instruction that checks reports what its check does, and the others report nothing. -/
theorem eachInstructionRaisesItsOwnFailure : Obligations.EachInstructionRaisesItsOwnFailure := by
  unfold Obligations.EachInstructionRaisesItsOwnFailure
  intro i s t report hready h hfail
  cases i
  case ret =>
    obtain ⟨hempty, rfl⟩ := State.pop_eq_error <|
      State.check_eq_error_of_failed h hready hfail fun _ => State.pop_core
    exact ⟨rfl, hempty, rfl⟩
  case callAddr nnn =>
    obtain ⟨hfull, rfl⟩ := State.push_eq_error <|
      State.check_eq_error_of_failed h hready hfail fun _ => State.push_core
    exact ⟨⟨nnn, rfl⟩, hfull, rfl⟩
  case drwVxVyN x y n =>
    obtain ⟨hpos, hpast, rfl⟩ := State.checkSpan_eq_error <|
      State.check_eq_error_of_failed h hready hfail fun _ _ => rfl
    exact ⟨.inl ⟨x, y, n, rfl, hpos, Nat.le_sub_one_of_lt hpast⟩, rfl⟩
  case ldVxMem x =>
    obtain ⟨_, hpast, rfl⟩ := State.checkSpan_eq_error <|
      State.check_eq_error_of_failed h hready hfail fun _ _ => rfl
    exact ⟨.inr ⟨x, rfl, Nat.le_of_lt_succ hpast⟩, rfl⟩
  case bcdVx x =>
    obtain ⟨_, hpast, rfl⟩ := State.checkSpan_eq_error <|
      State.check_eq_error_of_failed h hready hfail fun _ _ => s.storeBytes_core _ _
    exact ⟨.inl ⟨x, rfl, Nat.le_of_lt_succ hpast⟩, rfl⟩
  case ldMemVx x =>
    obtain ⟨_, hpast, rfl⟩ := State.checkSpan_eq_error <|
      State.check_eq_error_of_failed h hready hfail fun _ _ => s.storeBytes_core _ _
    exact ⟨.inr ⟨x, rfl, Nat.le_of_lt_succ hpast⟩, rfl⟩
  case skpVx x =>
    obtain ⟨hpast, rfl⟩ := State.checkKey_eq_error <|
      State.check_eq_error_of_failed h hready hfail fun _ _ => rfl
    exact ⟨x, .inl rfl, hpast, rfl⟩
  case sknpVx x =>
    obtain ⟨hpast, rfl⟩ := State.checkKey_eq_error <|
      State.check_eq_error_of_failed h hready hfail fun _ _ => rfl
    exact ⟨x, .inr rfl, hpast, rfl⟩
  case addIVx x =>
    obtain ⟨hpast, rfl⟩ := State.indexSum_eq_error <|
      State.check_eq_error_of_failed h hready hfail fun _ _ => rfl
    exact ⟨x, rfl, hpast, rfl⟩
  case ldVxK x =>
    cases h
    exact absurd hfail (s.awaitKey_not_failed x)
  -- the rest leave `CORE` as it was, ready
  all_goals
    cases h
    cases hready.symm.trans hfail

/-! ## The register transfers (43_index_memory.md R120, R121) -/

section
variable {s : State} (x : Reg)

/-- The registers fit: they are stored (R120). -/
theorem exec_ldMemVx_ok (h : s.checkSpan .memWrite (x.toNat + 1) = .ok ()) :
    exec (.ldMemVx x) s = .next (s.storeBytes s.index.toNat (s.regsUpTo x)).advance := by
  simp only [exec, execLdMemVx, h, except_map_ok, State.finish_ok]

/-- They do not fit: the transfer only reports (R120, 60_exceptions.md R141). -/
theorem exec_ldMemVx_error {report : Report} (h : s.checkSpan .memWrite (x.toNat + 1) = .error report) :
    exec (.ldMemVx x) s = .next (s.raise report) := by
  simp only [exec, execLdMemVx, h, except_map_error, State.finish_error]

/-- The bytes are inside memory: the registers are loaded (R121). -/
theorem exec_ldVxMem_ok (h : s.checkSpan .memRead (x.toNat + 1) = .ok ()) :
    exec (.ldVxMem x) s = .next (s.loadRegs x s.index.toNat).advance := by
  simp only [exec, execLdVxMem, h, except_map_ok, State.finish_ok]

/-- They are not: the transfer only reports (R121, 60_exceptions.md R141). -/
theorem exec_ldVxMem_error {report : Report} (h : s.checkSpan .memRead (x.toNat + 1) = .error report) :
    exec (.ldVxMem x) s = .next (s.raise report) := by
  simp only [exec, execLdVxMem, h, except_map_error, State.finish_error]

/-- Register `r` is stored at `a + r` (R120). -/
theorem State.readByte_storeBytes_regsUpTo (s : State) (a : Nat) {x r : Reg} (hr : r.toNat ≤ x.toNat) :
    (s.storeBytes a (s.regsUpTo x)).readByte (a + r.toNat) = s.getV r := by
  rw [s.readByte_storeBytes_add a _ (by simpa using Nat.lt_succ_of_le hr), State.regsUpTo_getElem]
  simp

end

/-- Settles O49: on each side of the end of memory, by the transfer and by the check's report. -/
theorem storeRegistersUpToX : Obligations.StoreRegistersUpToX := by
  unfold Obligations.StoreRegistersUpToX
  refine fun x s => ⟨fun hfits => ?_, fun hpast => ?_⟩
  · refine ⟨_, exec_ldMemVx_ok x (s.checkSpan_ok .memWrite _ (.inr hfits)),
      fun r hr => s.readByte_storeBytes_regsUpTo _ hr, by simp, ?_⟩
    rw [← s.regsUpTo_length x]
    exact (s.storeBytes_changesOnly _ (s.regsUpTo x)).setPc _
  · exact exec_ldMemVx_error x (s.checkSpan_error .memWrite (Nat.succ_pos _) (Nat.lt_succ_of_le hpast))

/-- Settles O50: on each side of the end of memory, by the transfer and by the check's report. -/
theorem loadRegistersUpToX : Obligations.LoadRegistersUpToX := by
  unfold Obligations.LoadRegistersUpToX
  refine fun x s => ⟨fun hfits => ?_, fun hpast => ?_⟩
  · refine ⟨_, exec_ldVxMem_ok x (s.checkSpan_ok .memRead _ (.inr hfits)), fun r hr => ?_, rfl,
      ((ChangesOnly.refl _ _ _ s).loadRegs (fun _ hr => hr) _).setPc _⟩
    rw [State.advance_getV, State.getV_loadRegs, if_pos hr]
  · exact exec_ldVxMem_error x (s.checkSpan_error .memRead (Nat.succ_pos _) (Nat.lt_succ_of_le hpast))

/-- Settles O51: the transfer has completed, so the two bytes are the registers', at the addresses the fetch reads. -/
theorem storedBytesAreFetchedNext : Obligations.StoredBytesAreFetchedNext := by
  unfold Obligations.StoredBytesAreFetchedNext
  intro x r s t hr h hcore hready hpc
  rcases State.finish_map_cases h with ⟨_, hcheck, rfl⟩ | ⟨report, _, rfl⟩
  · have hfits : s.index.toNat + (x.toNat + 1) ≤ 4096 :=
      (State.checkSpan_eq_ok hcheck).resolve_left (Nat.succ_ne_zero _)
    have hnext : (r + 1).toNat = r.toNat + 1 := by
      have hx := x.isLt
      exact BitVec.toNat_add_of_lt (y := 1#4) (by simp only [BitVec.toNat_ofNat]; omega)
    rw [State.fetch_ok _ (by rw [hpc]; show _ < 4096; omega), hpc, State.advance_readByte, State.advance_readByte,
      s.readByte_storeBytes_regsUpTo _ hr.le, Nat.add_assoc, ← hnext,
      s.readByte_storeBytes_regsUpTo _ (by omega)]
  · rw [hready] at hcore
    cases hcore

/-! ## Nested calls (10_state.md R30, R31) -/

theorem execAll_cons {i : Instr} {rest : List Instr} {s t : State} (h : exec i s = .next t) :
    execAll (i :: rest) s = execAll rest t := by
  rw [execAll, h]

theorem execAll_append {is js : List Instr} {s t : State} (h : execAll is s = .next t) :
    execAll (is ++ js) s = execAll js t := by
  induction is generalizing s with
  | nil =>
    cases h
    rfl
  | cons i rest ih =>
    obtain ⟨u, hu⟩ := exec_next i s
    rw [execAll_cons hu] at h
    rw [List.cons_append, execAll_cons hu, ih h]

/-- Calls and as many returns, by induction on the calls: the calls after the first and their returns come back to the
state after the first, whose entry the last return pops. -/
theorem execAll_calls_returns (targets : List Addr) (s : State) (hroom : s.sd.val + targets.length ≤ 16) :
    ∃ t u, execAll (targets.map Instr.callAddr) s = .next t ∧ t.sd.val = s.sd.val + targets.length ∧
      execAll (List.replicate targets.length .ret) t = .next u ∧ u.sd = s.sd ∧
      u.pc = (if targets = [] then s.pc else s.pc + 2) ∧
      ∀ k : Fin 16, k.val < s.sd.val → u.stk[k.val] = s.stk[k.val] := by
  induction targets generalizing s with
  | nil => exact ⟨s, s, rfl, rfl, rfl, rfl, rfl, fun _ _ => rfl⟩
  | cons nnn rest ih =>
    rw [List.length_cons] at hroom
    obtain ⟨s₁, hcall, -, hsd₁, hpushed, hkept, -⟩ := (callPushesTheNextAddress nnn s).1 (by omega)
    obtain ⟨t, u₁, hcalls, hsd, hreturns, husd₁, -, hentries⟩ := ih s₁ (by omega)
    have hlive : u₁.sd.val = s.sd.val + 1 := by rw [husd₁, hsd₁]
    obtain ⟨u, hret, hpc, husd, hustk, -⟩ := (retPopsTheReturnAddress u₁).1 (by omega)
    have hentry : u₁.stk[s.sd.val] = s.pc + 2 :=
      (hentries ⟨s.sd.val, by omega⟩ (by rw [hsd₁]; exact Nat.lt_succ_self _)).trans hpushed
    refine ⟨t, u, (execAll_cons hcall).trans hcalls, by rw [hsd, hsd₁, List.length_cons]; omega, ?_,
      Fin.ext (by omega), ?_, fun k hk => ?_⟩
    · rw [List.length_cons, List.replicate_succ', execAll_append hreturns, execAll_cons hret]
      rfl
    · simpa [hpc, hlive] using hentry
    · have hk₁ := hentries k (by omega)
      simp only [hustk, hk₁, hkept k (by omega)]

/-- Settles O34: the calls and the returns, and a call with the stack full. -/
theorem nestedCallsReturnInOrder : Obligations.NestedCallsReturnInOrder := by
  unfold Obligations.NestedCallsReturnInOrder
  intro targets s hroom
  obtain ⟨t, u, hcalls, htsd, hreturns, husd, hupc, hentries⟩ := execAll_calls_returns targets s hroom
  refine ⟨t, u, hcalls, htsd, hreturns, husd, hupc, hentries, fun hfull nnn => ?_⟩
  rw [exec_callAddr_full nnn (by simp [hfull]), hfull, State.raise]

end Sys2Proof.Machine

/-! SUPPORT. What an instruction does not read: the sound timer, and the registers the access table does not list as
read (10_state.md sections 1 and 5). -/

namespace Sys2Proof.Machine

/-! ## An update of the registers or the sound timer -/

/-- The state with its registers and its sound timer changed: what `State.setV` and `State.setSt` have in common. -/
def State.updateVSt (s : State) (f : Vector Byte 16 → Vector Byte 16) (g : Byte → Byte) : State :=
  { s with v := f s.v, st := g s.st }

section
variable (s : State) (f : Vector Byte 16 → Vector Byte 16) (g : Byte → Byte)

@[simp] theorem State.updateVSt_pc : (s.updateVSt f g).pc = s.pc := rfl

theorem State.updateVSt_storeBytes (a : Nat) (bytes : List Byte) :
    (s.updateVSt f g).storeBytes a bytes = (s.storeBytes a bytes).updateVSt f g := by
  induction bytes generalizing s a with
  | nil => rfl
  | cons b rest ih => exact ih (s.writeByte a b) (a + 1)

theorem State.updateVSt_push (r : Word) : (s.updateVSt f g).push r = (s.push r).map (·.updateVSt f g) := by
  by_cases h : s.sd.val < stackCap
  · rw [State.push_ok s r h, State.push_ok (s.updateVSt f g) r h]; rfl
  · rw [State.push_error s r h, State.push_error (s.updateVSt f g) r h]; rfl

theorem State.updateVSt_pop :
    (s.updateVSt f g).pop = s.pop.map fun popped => (popped.1, popped.2.updateVSt f g) := by
  by_cases h : 0 < s.sd.val
  · rw [State.pop_ok s h, State.pop_ok (s.updateVSt f g) h]; rfl
  · rw [State.pop_error s h, State.pop_error (s.updateVSt f g) h]; rfl

theorem execRet_updateVSt : ∃ t, execRet s = .next t ∧ execRet (s.updateVSt f g) = .next (t.updateVSt f g) := by
  refine s.finish_commutes (·.updateVSt f g) (fun _ => rfl) ?_
  rw [State.updateVSt_pop]
  cases s.pop <;> rfl

theorem execCallAddr_updateVSt (nnn : Addr) :
    ∃ t, execCallAddr nnn s = .next t ∧ execCallAddr nnn (s.updateVSt f g) = .next (t.updateVSt f g) := by
  refine s.finish_commutes (·.updateVSt f g) (fun _ => rfl) ?_
  rw [State.updateVSt_push, State.updateVSt_pc]
  cases s.push (s.pc + 2) <;> rfl

end

/-! ## The sound timer -/

theorem State.setSt_awaitKey (s : State) (b : Byte) (x : Reg) : (s.setSt b).awaitKey x = (s.awaitKey x).setSt b := by
  cases h : s.input.key with
  | some k => rw [State.awaitKey_some s x h, State.awaitKey_some (s.setSt b) x h]; rfl
  | none => rw [State.awaitKey_none s x h, State.awaitKey_none (s.setSt b) x h]; rfl

/-- With another sound timer an instruction does the same, and leaves that one unless it writes its own. -/
theorem exec_setSt (i : Instr) (s : State) (b : Byte) :
    ∃ t b', exec i s = .next t ∧ exec i (s.setSt b) = .next (t.setSt b') := by
  have commutes (h : ∃ t, exec i s = .next t ∧ exec i (s.setSt b) = .next (t.setSt b)) :
      ∃ t b', exec i s = .next t ∧ exec i (s.setSt b) = .next (t.setSt b') :=
    h.imp fun _ ht => ⟨b, ht⟩
  cases i
  case ldStVx x => exact ⟨_, s.getV x, rfl, rfl⟩
  case ret => exact commutes (execRet_updateVSt s id fun _ => b)
  case callAddr nnn => exact commutes (execCallAddr_updateVSt s id (fun _ => b) nnn)
  case ldVxK x => exact ⟨_, b, rfl, congrArg Host.Outcome.next (s.setSt_awaitKey b x)⟩
  case drwVxVyN | skpVx | sknpVx | addIVx | ldVxMem =>
    exact commutes (s.finish_map_commutes (·.setSt b) _ (fun _ => rfl) fun _ => rfl)
  case bcdVx | ldMemVx =>
    exact commutes (s.finish_map_commutes (·.setSt b) _ (fun _ => rfl) fun _ =>
      congrArg State.advance (s.updateVSt_storeBytes id (fun _ => b) _ _))
  -- the rest check nothing: each is one chain of updates of other fields
  all_goals exact ⟨_, b, rfl, rfl⟩

/-- Settles O24: the two states after differ at most in the sound timer. -/
theorem soundTimerIsReadByNoInstruction : Obligations.SoundTimerIsReadByNoInstruction := by
  unfold Obligations.SoundTimerIsReadByNoInstruction
  intro i s b
  obtain ⟨t, b', ht, hu⟩ := exec_setSt i s b
  exact ⟨t, t.setSt b', ht, hu, rfl⟩

/-! ## A register changed beforehand -/

/-- The second state is the first with the change of the register kept, or, where the register may be written, the first
itself. -/
def State.SameButReg (r : Reg) (b : Byte) (written : Prop) (t u : State) : Prop :=
  u = t.setV r b ∨ (written ∧ u = t)

section
variable {r : Reg} {b : Byte} {written : Prop} {t u : State}

theorem State.setV_setV_self (s : State) (x : Reg) (b c : Byte) : (s.setV x b).setV x c = s.setV x c := by
  simp [State.setV]

theorem State.setV_setV_comm (s : State) {x r : Reg} (h : r ≠ x) (b c : Byte) :
    (s.setV r b).setV x c = (s.setV x c).setV r b := by
  have hne : r.toNat ≠ x.toNat := fun e => h (BitVec.eq_of_toNat_eq e)
  simp only [State.setV]
  rw [Vector.set_comm _ _ hne]

theorem State.SameButReg.changed (s : State) : State.SameButReg r b written s (s.setV r b) := .inl rfl

/-- An update that does not touch the register. -/
theorem State.SameButReg.map (h : State.SameButReg r b written t u) {g : State → State}
    (hg : g (t.setV r b) = (g t).setV r b) : State.SameButReg r b written (g t) (g u) := by
  rcases h with rfl | ⟨hw, rfl⟩
  · exact .inl hg
  · exact .inr ⟨hw, rfl⟩

/-- A write to a register takes the change away where it is the register changed. -/
theorem State.SameButReg.setV (h : State.SameButReg r b written t u) {x : Reg} (hx : r = x → written) (c : Byte) :
    State.SameButReg r b written (t.setV x c) (u.setV x c) := by
  rcases h with rfl | ⟨hw, rfl⟩
  · by_cases hr : r = x
    · subst hr
      exact .inr ⟨hx rfl, t.setV_setV_self r b c⟩
    · exact .inl (t.setV_setV_comm hr b c)
  · exact .inr ⟨hw, rfl⟩

/-- Loading registers reads none, and takes the change away where the register is among them. -/
theorem State.SameButReg.loadRegs {x : Reg} (hx : r.toNat ≤ x.toNat → written) (s : State) (a : Nat) :
    State.SameButReg r b written (s.loadRegs x a) ((s.setV r b).loadRegs x a) := by
  have hread : (s.setV r b).loadRegs x a = { s with
      v := Vector.ofFn fun k : Fin 16 =>
        if k.val ≤ x.toNat then s.readByte (a + k.val) else (s.v.set r.toNat b r.isLt)[k.val] } := rfl
  rw [hread, State.loadRegs]
  by_cases hle : r.toNat ≤ x.toNat
  · refine .inr ⟨hx hle, congrArg (fun v => { s with v := v }) (Vector.ext fun k hk => ?_)⟩
    by_cases hkx : k ≤ x.toNat
    · simp [hkx]
    · simp [hkx, Vector.getElem_set_ne r.isLt hk (show r.toNat ≠ k by omega)]
  · refine .inl (congrArg (fun v => { s with v := v }) (Vector.ext fun k hk => ?_))
    by_cases hkr : r.toNat = k
    · simp [← hkr, hle]
    · simp [Vector.getElem_set_ne r.isLt hk hkr]

theorem State.SameButReg.advance (h : State.SameButReg r b written t u) :
    State.SameButReg r b written t.advance u.advance := h.map rfl

/-- An instruction with one check, the same in both states. -/
theorem State.SameButReg.finish {α : Type} {s : State} {check : Except Report α} {effects effects' : α → State}
    (h : ∀ a, State.SameButReg r b written (effects a) (effects' a)) :
    ∃ t u, s.finish (check.map effects) = .next t ∧ (s.setV r b).finish (check.map effects') = .next u ∧
      State.SameButReg r b written t u := by
  cases check with
  | ok a => exact ⟨_, _, rfl, rfl, h a⟩
  | error report => exact ⟨_, _, rfl, rfl, .inl rfl⟩

end

/-! ## The registers the access table lists as read (10_state.md R17) -/

section
variable {r : Reg} {b : Byte} (s : State)

/-- The source of a shift is the register `SHIFT_SRC` names. -/
theorem State.shiftOperand_setV {x y : Reg} (h : Instr.readsReg s.params (.shrVxVy x y) r = false) :
    (s.setV r b).shiftOperand x y = s.shiftOperand x y := by
  unfold State.shiftOperand
  rw [State.setV_params]
  cases hsrc : s.params.shiftSrc <;> simp only [Instr.readsReg, hsrc, beq_eq_false_iff_ne] at h
  · exact s.getV_setV_ne h.symm b
  · exact s.getV_setV_ne h.symm b

/-- The key number of a key skip is in the register only where `KEY_SRC` says so. -/
theorem State.keyNumber_setV {x : Reg} (h : Instr.readsReg s.params (.skpVx x) r = false) :
    (s.setV r b).keyNumber x = s.keyNumber x := by
  unfold State.keyNumber
  rw [State.setV_params]
  cases hsrc : s.params.keySrc <;> simp only [Instr.readsReg, hsrc, beq_eq_false_iff_ne] at h
  · exact s.getV_setV_ne h.symm b
  · rfl

/-- The registers a transfer stores are as before where the register changed is not among them. -/
theorem State.regsUpTo_setV {x : Reg} (h : x.toNat < r.toNat) : (s.setV r b).regsUpTo x = s.regsUpTo x := by
  refine List.ext_getElem (by simp) fun k hk _ => ?_
  have hk' : k < x.toNat + 1 := by simpa using hk
  have hr := r.isLt
  rw [State.regsUpTo_getElem, State.regsUpTo_getElem, State.getV_setV_ne]
  intro hkr
  have := congrArg BitVec.toNat hkr
  simp only [BitVec.toNat_ofNat] at this
  omega

end

/-- The effect of an instruction on the change of a register it does not read. -/
def IgnoresReg (i : Instr) (s : State) (r : Reg) (b : Byte) : Prop :=
  ∃ t u, exec i s = .next t ∧ exec i (s.setV r b) = .next u ∧ State.SameButReg r b (i.writesReg r = true) t u

section
variable {i : Instr} {s : State} {r : Reg} {b : Byte}

/-- An instruction that does not write the register and commutes with the change. -/
theorem ignoresReg_of_commutes (h : ∃ t, exec i s = .next t ∧ exec i (s.setV r b) = .next (t.setV r b)) :
    IgnoresReg i s r b :=
  h.imp fun t ⟨ht, hu⟩ => ⟨t.setV r b, ht, hu, .inl rfl⟩

/-- An instruction that writes the same byte to a register in both states. -/
theorem ignoresReg_of_setV {x : Reg} {c : Byte} (h : exec i s = .next (s.setV x c).advance)
    (hu : exec i (s.setV r b) = .next ((s.setV r b).setV x c).advance) (hx : i.writesReg x = true) :
    IgnoresReg i s r b :=
  ⟨_, _, h, hu, ((State.SameButReg.changed s).setV (fun e => e ▸ hx) c).advance⟩

/-- An instruction that writes the same byte to a register and the same flag in both states. -/
theorem ignoresReg_of_setV_setVF {x : Reg} {c : Byte} {f : Bool}
    (h : exec i s = .next ((s.setV x c).setVF f).advance)
    (hu : exec i (s.setV r b) = .next (((s.setV r b).setV x c).setVF f).advance) (hx : i.writesReg x = true)
    (hf : i.writesReg regF = true) : IgnoresReg i s r b :=
  ⟨_, _, h, hu, (((State.SameButReg.changed s).setV (fun e => e ▸ hx) c).setV (fun e => e ▸ hf) _).advance⟩

end

/-- An instruction reads no register but those the access table lists. -/
theorem exec_ignoresReg {i : Instr} {s : State} {r : Reg} (b : Byte) (hr : i.readsReg s.params r = false) :
    IgnoresReg i s r b := by
  have hget (q : Reg) (hq : i.readsReg s.params q = true) : (s.setV r b).getV q = s.getV q := by
    refine s.getV_setV_ne (fun e => ?_) b
    rw [e, hr] at hq
    cases hq
  cases i
  case ldVxVy x y =>
    have hy := hget y (by simp [Instr.readsReg])
    exact ignoresReg_of_setV rfl (by simp only [exec, execLdVxVy, hy]) (by simp [Instr.writesReg])
  case addVxKk x kk =>
    have hx := hget x (by simp [Instr.readsReg])
    exact ignoresReg_of_setV rfl (by simp only [exec, execAddVxKk, hx]) (by simp [Instr.writesReg])
  case orVxVy x y | andVxVy x y | xorVxVy x y =>
    have hx := hget x (by simp [Instr.readsReg])
    have hy := hget y (by simp [Instr.readsReg])
    exact ignoresReg_of_setV rfl (by simp only [exec, execOrVxVy, execAndVxVy, execXorVxVy, hx, hy])
      (by simp [Instr.writesReg])
  case addVxVy x y | subVxVy x y | subnVxVy x y =>
    have hx := hget x (by simp [Instr.readsReg])
    have hy := hget y (by simp [Instr.readsReg])
    exact ignoresReg_of_setV_setVF rfl (by simp only [exec, execAddVxVy, execSubVxVy, execSubnVxVy, hx, hy])
      (by simp [Instr.writesReg]) (by simp [Instr.writesReg])
  case shrVxVy x y | shlVxVy x y =>
    have hsource := s.shiftOperand_setV (b := b) hr
    exact ignoresReg_of_setV_setVF rfl (by simp only [exec, execShrVxVy, execShlVxVy, hsource])
      (by simp [Instr.writesReg]) (by simp [Instr.writesReg])
  case ldVxKk | rndVxKk | ldVxDt => exact ignoresReg_of_setV rfl rfl (by simp [Instr.writesReg])
  case ldVxK x =>
    have hx {q : Reg} (e : q = x) : (Instr.ldVxK x).writesReg q = true := by simp [Instr.writesReg, e]
    refine ⟨_, _, rfl, rfl, ?_⟩
    cases hk : s.input.key with
    | some k =>
      rw [State.awaitKey_some s x hk, State.awaitKey_some (s.setV r b) x hk]
      exact (((State.SameButReg.changed s).setV hx _).advance).map (g := fun u => { u with core := .ready }) rfl
    | none =>
      rw [State.awaitKey_none s x hk, State.awaitKey_none (s.setV r b) x hk]
      exact .inl rfl
  case ldVxMem x =>
    exact State.SameButReg.finish fun _ =>
      (State.SameButReg.loadRegs (fun hle => by simpa [Instr.writesReg] using hle) s _).advance
  case drwVxVyN x y n =>
    have hx := hget x (by simp [Instr.readsReg])
    have hy := hget y (by simp [Instr.readsReg])
    have hdrawn : (s.setV r b).drawn x y n = s.drawn x y n := by simp only [State.drawn, hx, hy]; rfl
    refine State.SameButReg.finish fun _ => ?_
    rw [hdrawn]
    exact (((State.SameButReg.changed s).map (g := (·.withFb (s.drawn x y n).1)) rfl).setV
      (fun e => by simp [Instr.writesReg, e]) _).advance
  case skpVx x | sknpVx x =>
    have hkey := s.keyNumber_setV (b := b) hr
    refine ignoresReg_of_commutes ?_
    simp only [exec, execSkpVx, execSknpVx, hkey]
    exact s.finish_map_commutes (·.setV r b) _ (fun _ => rfl) fun _ => rfl
  case addIVx x =>
    have hx := hget x (by simp [Instr.readsReg])
    refine ignoresReg_of_commutes ?_
    simp only [exec, execAddIVx, hx]
    exact s.finish_map_commutes (·.setV r b) _ (fun _ => rfl) fun _ => rfl
  case bcdVx x =>
    have hx := hget x (by simp [Instr.readsReg])
    refine ignoresReg_of_commutes ?_
    simp only [exec, execBcdVx, hx]
    exact s.finish_map_commutes (·.setV r b) _ (fun _ => rfl) fun _ =>
      congrArg State.advance (s.updateVSt_storeBytes (fun v => v.set r.toNat b r.isLt) id _ _)
  case ldMemVx x =>
    have hregs := s.regsUpTo_setV (b := b) (Nat.lt_of_not_le (of_decide_eq_false hr))
    refine ignoresReg_of_commutes ?_
    simp only [exec, execLdMemVx, hregs]
    exact s.finish_map_commutes (·.setV r b) _ (fun _ => rfl) fun _ =>
      congrArg State.advance (s.updateVSt_storeBytes (fun v => v.set r.toNat b r.isLt) id _ _)
  case ret => exact ignoresReg_of_commutes (execRet_updateVSt s (fun v => v.set r.toNat b r.isLt) id)
  case callAddr nnn => exact ignoresReg_of_commutes (execCallAddr_updateVSt s (fun v => v.set r.toNat b r.isLt) id nnn)
  case seVxVy x y | sneVxVy x y =>
    have hx := hget x (by simp [Instr.readsReg])
    have hy := hget y (by simp [Instr.readsReg])
    refine ignoresReg_of_commutes ⟨_, rfl, ?_⟩
    simp only [exec, execSeVxVy, execSneVxVy, hx, hy]
    rfl
  case seVxKk x kk | sneVxKk x kk =>
    have hx := hget x (by simp [Instr.readsReg])
    refine ignoresReg_of_commutes ⟨_, rfl, ?_⟩
    simp only [exec, execSeVxKk, execSneVxKk, hx]
    rfl
  case ldDtVx x | ldStVx x | ldFVx x =>
    have hx := hget x (by simp [Instr.readsReg])
    refine ignoresReg_of_commutes ⟨_, rfl, ?_⟩
    simp only [exec, execLdDtVx, execLdStVx, execLdFVx, hx]
    rfl
  case jpV0Addr nnn =>
    have hx := hget 0 (by simp [Instr.readsReg])
    refine ignoresReg_of_commutes ⟨_, rfl, ?_⟩
    simp only [exec, execJpV0Addr, hx]
    rfl
  -- the rest read no register and write none
  case cls | jpAddr | ldIAddr => exact ignoresReg_of_commutes ⟨_, rfl, rfl⟩

/-- Settles O22: instruction by instruction, from what each reads. -/
theorem unreadRegistersDoNotMatter : Obligations.UnreadRegistersDoNotMatter := by
  unfold Obligations.UnreadRegistersDoNotMatter
  exact fun i s r b hr => exec_ignoresReg b hr

end Sys2Proof.Machine

/-! SUPPORT. A whole sprite (44_display.md R127): its rows fall on different rows of the grid, so each of its bits meets
its own pixel, once. -/

namespace Sys2Proof.Machine

/-! ## The rows of a sprite -/

/-- Two rows of a sprite, fewer rows apart than the grid is high, share no pixel. -/
theorem Pixel.drawn_ne_of_row (g : Geom) (cx cy : Nat) {k : Nat} (hpos : 0 < k) (hk : k < g.height) (i j : Nat) :
    Pixel.drawn g cx (cy + k) j ≠ Pixel.drawn g cx cy i := by
  intro e
  have hrow : (cy + k) % g.height = cy % g.height := congrArg Pixel.row e
  cases g <;> simp only [Geom.height] at hrow hk <;> omega

/-- A pixel none of the sprite's bits falls on is not turned over. -/
theorem spriteHits_of_ne {g : Geom} {cx cy : Nat} {bytes : List Byte} {q : Pixel}
    (hq : ∀ r i, r < bytes.length → i < 8 → q ≠ Pixel.drawn g cx (cy + r) i) : spriteHits g cx cy bytes q = false := by
  induction bytes generalizing cy with
  | nil => rfl
  | cons b rest ih =>
    have hbelow : spriteHits g cx (cy + 1) rest q = false := ih fun r i hr hi => by
      rw [Nat.add_assoc, Nat.add_comm 1 r]
      exact hq (r + 1) i (Nat.succ_lt_succ hr) hi
    have hmiss : (decide (q.row = cy % g.height) && rowHits g b cx q.col) = false := by
      rw [Bool.eq_false_iff, ne_eq, Bool.and_eq_true, decide_eq_true_eq]
      rintro ⟨hrow, hhits⟩
      obtain ⟨i, hi, hdrawn⟩ := eq_drawn_of_rowHits hrow hhits
      exact hq 0 i (Nat.succ_pos _) hi hdrawn
    rw [spriteHits, hmiss, hbelow]
    rfl

/-- The pixel a bit of the sprite falls on is turned over by that bit alone. -/
theorem spriteHits_drawn {g : Geom} {cx cy : Nat} {bytes : List Byte} (hlen : bytes.length ≤ g.height) {r i : Nat}
    (hr : r < bytes.length) (hi : i < 8) :
    spriteHits g cx cy bytes (Pixel.drawn g cx (cy + r) i) = rowBit (bytes.getD r 0) i := by
  induction bytes generalizing cy r with
  | nil => cases hr
  | cons b rest ih =>
    rw [List.length_cons] at hlen hr
    rw [spriteHits]
    cases r with
    | zero =>
      have hbelow : spriteHits g cx (cy + 1) rest (Pixel.drawn g cx cy i) = false := spriteHits_of_ne fun k j hk _ => by
        rw [Nat.add_assoc]
        exact (Pixel.drawn_ne_of_row g cx cy (by omega) (by omega) i j).symm
      rw [Nat.add_zero, hbelow, Bool.xor_false]
      simp [Pixel.drawn, rowHits_drawn g b cx hi]
    | succ r =>
      have hrow : (Pixel.drawn g cx (cy + (r + 1)) i).row ≠ cy % g.height := fun e =>
        Pixel.drawn_ne_of_row g 0 cy (Nat.succ_pos r) (by omega) 0 0 (congrArg (Pixel.mk _) e)
      rw [decide_eq_false hrow, Bool.false_and, Bool.false_xor, ← Nat.add_assoc, Nat.add_right_comm,
        ih (by omega) (by omega), List.getD_cons_succ]

/-- A sprite collides exactly where one of its set bits falls on a pixel lit before: its other rows have not met that
pixel (44_display.md R127). -/
theorem Framebuffer.collided_drawSprite_iff (g : Geom) (fb : Framebuffer) (cx cy : Nat) {bytes : List Byte}
    (hlen : bytes.length ≤ g.height) : (fb.drawSprite g cx cy bytes).2 = true ↔
      ∃ r i, r < bytes.length ∧ i < 8 ∧ rowBit (bytes.getD r 0) i = true ∧
        fb.isLit (Pixel.drawn g cx (cy + r) i) = true := by
  induction bytes generalizing fb cy with
  | nil => simp [Framebuffer.drawSprite]
  | cons b rest ih =>
    rw [List.length_cons] at hlen
    have hbelow (r i : Nat) (hr : r < rest.length) : (fb.drawRow g b cx cy).1.isLit (Pixel.drawn g cx (cy + 1 + r) i) =
        fb.isLit (Pixel.drawn g cx (cy + (r + 1)) i) := by
      rw [Nat.add_assoc, Nat.add_comm 1 r]
      exact fb.isLit_drawRow_of_ne g b cx cy fun j _ => Pixel.drawn_ne_of_row g cx cy (Nat.succ_pos r) (by omega) j i
    rw [Framebuffer.drawSprite, Bool.or_eq_true, Framebuffer.collided_drawRow_iff, ih _ _ (by omega)]
    constructor
    · rintro (⟨i, hi, hbit, hlit⟩ | ⟨r, i, hr, hi, hbit, hlit⟩)
      · exact ⟨0, i, Nat.succ_pos _, hi, hbit, hlit⟩
      · exact ⟨r + 1, i, Nat.succ_lt_succ hr, hi, hbit, hbelow r i hr ▸ hlit⟩
    · rintro ⟨r, i, hr, hi, hbit, hlit⟩
      cases r with
      | zero => exact .inl ⟨i, hi, hbit, hlit⟩
      | succ r =>
        have hr' : r < rest.length := Nat.lt_of_succ_lt_succ hr
        exact .inr ⟨r, i, hr', hi, hbit, (hbelow r i hr').trans hlit⟩

/-! ## The sprite at `I` -/

@[simp] theorem State.loadBytes_length (s : State) (a n : Nat) : (s.loadBytes a n).length = n := by
  simp [State.loadBytes]

theorem State.loadBytes_getD (s : State) (a : Nat) {n r : Nat} (hr : r < n) :
    (s.loadBytes a n).getD r 0 = s.readByte (a + r) := by
  simp [State.loadBytes, hr]

section
variable (s : State) (x y : Reg) (n : Nibble)

/-- The pixel bit `i` of row `r` of the sprite falls on. -/
def State.spritePixel (r i : Nat) : Pixel := Pixel.drawn s.params.geom (s.getV x).toNat ((s.getV y).toNat + r) i

/-- Bit `i` of row `r` of the sprite. -/
def State.spriteBit (r i : Nat) : Bool := rowBit (s.readByte (s.index.toNat + r)) i

/-- A sprite is lower than the grid. -/
theorem State.sprite_length_le : (s.loadBytes s.index.toNat n.toNat).length ≤ s.params.geom.height := by
  have hn := n.isLt
  rw [State.loadBytes_length]
  cases s.params.geom <;> simp only [Geom.height] <;> omega

theorem State.isLit_drawn_spritePixel {r i : Nat} (hr : r < n.toNat) (hi : i < 8) :
    (s.drawn x y n).1.isLit (s.spritePixel x y r i) = (s.fb.isLit (s.spritePixel x y r i) ^^ s.spriteBit r i) := by
  rw [State.drawn, Framebuffer.isLit_drawSprite, State.spritePixel, State.spriteBit,
    spriteHits_drawn (s.sprite_length_le n) (by simpa using hr) hi, s.loadBytes_getD _ hr]

theorem State.isLit_drawn_of_ne {q : Pixel} (hq : ∀ r i, r < n.toNat → i < 8 → q ≠ s.spritePixel x y r i) :
    (s.drawn x y n).1.isLit q = s.fb.isLit q := by
  rw [State.drawn, Framebuffer.isLit_drawSprite,
    spriteHits_of_ne fun r i hr hi => hq r i (by simpa using hr) hi, Bool.xor_false]

theorem State.collided_drawn_iff : (s.drawn x y n).2 = true ↔ ∃ r i, r < n.toNat ∧ i < 8 ∧ s.spriteBit r i = true ∧
    s.fb.isLit (s.spritePixel x y r i) = true := by
  rw [State.drawn, Framebuffer.collided_drawSprite_iff _ _ _ _ (s.sprite_length_le n)]
  refine exists_congr fun r => exists_congr fun i => ?_
  rw [State.loadBytes_length]
  refine and_congr_right fun hr => ?_
  rw [s.loadBytes_getD _ hr]
  rfl

end

/-- The flag reads 1 exactly where it was written as set. -/
theorem flag_eq_one_iff (f : Bool) : (if f then 1 else 0 : Byte) = 1 ↔ f = true := by
  cases f <;> decide

section
variable (s : State) (x y : Reg) (n : Nibble)

/-- The state after a sprite is drawn (44_display.md R127). -/
def State.afterDraw : State := ((s.withFb (s.drawn x y n).1).setVF (s.drawn x y n).2).advance

theorem exec_drwVxVyN_afterDraw (h : n.toNat = 0 ∨ s.index.toNat + n.toNat ≤ memSize) :
    exec (.drwVxVyN x y n) s = .next (s.afterDraw x y n) :=
  exec_drwVxVyN_ok (s.checkSpan_ok .memRead _ h)

theorem State.afterDraw_fb : (s.afterDraw x y n).fb = (s.drawn x y n).1 := rfl

/-- The flag register after a sprite is drawn is the collision, as a bit. -/
theorem State.afterDraw_getVF : (s.afterDraw x y n).getVF = if (s.drawn x y n).2 then 1 else 0 :=
  State.getVF_setVF_advance _ _

theorem State.afterDraw_getVF_eq_one_iff : (s.afterDraw x y n).getVF = 1 ↔ (s.drawn x y n).2 = true := by
  rw [State.afterDraw_getVF]
  exact flag_eq_one_iff _

/-- Drawing reads the registers and memory, which a sprite drawn leaves, `VF` apart. -/
theorem State.afterDraw_getV {r : Reg} (hr : r ≠ regF) : (s.afterDraw x y n).getV r = s.getV r :=
  State.getV_setVF_ne _ hr _

end

/-- Settles O54: on each side of the end of memory, by the sprite drawn and by the check's report. -/
theorem drwXorsTheSpriteOnce : Obligations.DrwXorsTheSpriteOnce := by
  unfold Obligations.DrwXorsTheSpriteOnce
  intro x y n s
  refine ⟨fun hfits => ?_, fun hn hpast => ?_⟩
  · have hspan : n.toNat = 0 ∨ s.index.toNat + n.toNat ≤ memSize := by
      rcases hfits with rfl | hfits
      · exact .inl rfl
      · omega
    refine ⟨_, exec_drwVxVyN_afterDraw s x y n hspan, fun r i hr hi => s.isLit_drawn_spritePixel x y n hr hi,
      fun q hq => s.isLit_drawn_of_ne x y n hq, ?_, ?_, ?_, rfl, ?_⟩
    · rw [State.afterDraw_getVF]
      exact (flag_eq_zero_or_one _).symm
    · exact (s.afterDraw_getVF_eq_one_iff x y n).trans (s.collided_drawn_iff x y n)
    · refine (s.dirty_drawn x y n).trans ?_
      by_cases hn : n = 0
      · simp [hn]
      · rw [if_neg hn, decide_eq_true hn, Bool.or_true]
    · exact (((ChangesOnly.refl (· = regF) [.display] _ s).withFb (by simp) _).setVF rfl _).setPc _
  · have hpos : 0 < n.toNat := Nat.pos_of_ne_zero fun h => hn (BitVec.eq_of_toNat_eq h)
    exact exec_drwVxVyN_error (s.checkSpan_error .memRead hpos (by omega))

/-! ## Drawing twice (95_test_vectors.md L1.4) -/

/-- A row byte is not 0 exactly where one of its eight bits is set. -/
theorem ne_zero_iff_exists_rowBit (b : Byte) : b ≠ 0 ↔ ∃ i < 8, rowBit b i = true := by
  rw [not_iff_comm]
  constructor
  · intro hnone
    ext k hk
    have hbit : ¬ rowBit b (7 - k) = true := fun h => hnone ⟨7 - k, by omega, h⟩
    have hk' : 7 - (7 - k) = k := by omega
    simpa [rowBit, hk', BitVec.getLsbD_eq_getElem hk] using hbit
  · rintro rfl
    simp [rowBit]

section
variable (s : State) {x y : Reg} (n : Nibble)

/-- The second draw is of the same sprite at the same place. -/
theorem State.afterDraw_drawn (hx : x ≠ regF) (hy : y ≠ regF) : (s.afterDraw x y n).drawn x y n =
    (s.drawn x y n).1.drawSprite s.params.geom (s.getV x).toNat (s.getV y).toNat
      (s.loadBytes s.index.toNat n.toNat) := by
  rw [State.drawn, s.afterDraw_getV x y n hx, s.afterDraw_getV x y n hy]
  rfl

/-- Every pixel turned over by the first draw is turned back by the second. -/
theorem State.isLit_afterDraw_drawn (hx : x ≠ regF) (hy : y ≠ regF) (q : Pixel) :
    ((s.afterDraw x y n).drawn x y n).1.isLit q = s.fb.isLit q := by
  rw [s.afterDraw_drawn n hx hy, Framebuffer.isLit_drawSprite, State.drawn, Framebuffer.isLit_drawSprite,
    Bool.xor_assoc, Bool.xor_self, Bool.xor_false]

theorem State.afterDraw_spritePixel (hx : x ≠ regF) (hy : y ≠ regF) (r i : Nat) :
    (s.afterDraw x y n).spritePixel x y r i = s.spritePixel x y r i := by
  rw [State.spritePixel, s.afterDraw_getV x y n hx, s.afterDraw_getV x y n hy]
  rfl

end

/-- Settles O55: the second draw meets the same pixels with the same bits, so it undoes the first; on a clear screen the
lit pixels it meets are those of its own set bits. -/
theorem drawingTwiceErases : Obligations.DrawingTwiceErases := by
  unfold Obligations.DrawingTwiceErases
  intro x y n s hx hy hfits
  refine ⟨s.afterDraw x y n, (s.afterDraw x y n).afterDraw x y n, exec_drwVxVyN_afterDraw s x y n (.inr hfits),
    exec_drwVxVyN_afterDraw _ x y n (.inr hfits), s.isLit_afterDraw_drawn n hx hy, fun hclear => ⟨?_, ?_⟩⟩
  · have hnone : ¬ (s.drawn x y n).2 = true := by
      rw [State.collided_drawn_iff]
      rintro ⟨r, i, _, _, _, hlit⟩
      rw [hclear] at hlit
      cases hlit
    rw [State.afterDraw_getVF, if_neg hnone]
  · have hlit {r i : Nat} (hr : r < n.toNat) (hi : i < 8) :
        (s.afterDraw x y n).fb.isLit ((s.afterDraw x y n).spritePixel x y r i) = s.spriteBit r i := by
      rw [s.afterDraw_spritePixel n hx hy, State.afterDraw_fb, s.isLit_drawn_spritePixel x y n hr hi, hclear,
        Bool.false_xor]
    rw [State.afterDraw_getVF_eq_one_iff, State.collided_drawn_iff]
    simp only [ne_zero_iff_exists_rowBit]
    constructor
    · rintro ⟨r, i, hr, hi, hbit, _⟩
      exact ⟨r, hr, i, hi, hbit⟩
    · rintro ⟨r, hr, i, hi, hbit⟩
      exact ⟨r, i, hr, hi, hbit, (hlit hr hi).trans hbit⟩

end Sys2Proof.Machine
